-- ==== Sys2Proof/Word.lean ====
section
/-! DEFINITION. The word types of the block: bytes, 32-bit register words, byte strings, and the 4-byte and 16-byte
strings the cipher core works on (spec 00_scope.md R9, R10; 41_aes_cbc.md R110, R115, R120). -/

namespace Sys2Proof

/-- A byte, 0..255 (R10). -/
abbrev Byte := BitVec 8

/-- The contents of a 32-bit register and of a CMD word (R21, R70). -/
abbrev Word := BitVec 32

/-- A byte string, a finite list of bytes (R10). -/
abbrev Bytes := List Byte

/-- A 4-byte string: one word of the round-key schedule (R120), and one column of the AES State (R115), `b0` being
byte 0, the row 0 entry. -/
structure Quad where
  b0 : Byte
  b1 : Byte
  b2 : Byte
  b3 : Byte
deriving DecidableEq, Repr

/-- A 16-byte block as the AES State, column by column (R110, R115): byte `r + 4*c` of the block is byte `r` of
column `c`. -/
structure Block where
  c0 : Quad
  c1 : Quad
  c2 : Quad
  c3 : Quad
deriving DecidableEq, Repr

/-- The 4-byte string of zeros. -/
def Quad.zero : Quad := ⟨0, 0, 0, 0⟩

/-- The 16-byte block of zeros. -/
def Block.zero : Block := ⟨Quad.zero, Quad.zero, Quad.zero, Quad.zero⟩

end Sys2Proof
end

