-- ==== Sys2Proof/Syntax.lean ====
section
/-! DEFINITION. The command set (spec 30_encoding.md R71, R72; every row of opcode_table.json) and the host's side: the
bus transactions and reset-input changes that reach the block (20_memory.md, 30_encoding.md R75,
70_reset_and_hazards.md R230). -/

namespace Sys2Proof

/-- The commands, one constructor per row of spec/opcode_table.json. -/
inductive Instr where
  /-- ENCODE, CMD word 0x00000001 (R173). -/
  | encode
  /-- DECODE, CMD word 0x00000002 (R174). -/
  | decode
  /-- HEX_ENC, CMD word 0x00000003 (R175). -/
  | hexEnc
  /-- HEX_DEC, CMD word 0x00000004 (R176). -/
  | hexDec
  /-- ILLEGAL: any other CMD word, with its two fields RSVD = w[31:4] and OPCODE = w[3:0] (R72, R177). -/
  | illegal (rsvd : BitVec 28) (opcode : BitVec 4)
deriving DecidableEq, Repr

/-- What the outside world does to the block, one event at a time in bus order (20_memory.md R61). Addresses are bus
addresses, `n` is the width in bytes; any width may be tried (R53 and R54 say which get a bus error). -/
inductive HostOp where
  /-- `MemRead(addr, n)` (R11, R52). -/
  | read (addr n : Nat)
  /-- `MemWrite(addr, n, v)`: the low `8*n` bits of `v` are the data (R11, R52). -/
  | write (addr n : Nat) (v : Word)
  /-- POLL (R75): read STATUS until its bit 0 is 0. -/
  | poll
  /-- The platform asserts (`true`) or deasserts (`false`) the reset input (R230). -/
  | reset (asserted : Bool)
deriving DecidableEq, Repr

end Sys2Proof
end

