-- ==== Sys2Proof/WellFormed.lean ====
section
/-! DEFINITION. Which terms of the command syntax stand for a CMD word: `illegal` must not carry the fields of one of
the four legal words (spec 30_encoding.md R71, R72). -/

namespace Sys2Proof

/-- The fields RSVD and OPCODE are those of one of R71's four legal words. -/
def legalFields (rsvd : BitVec 28) (opcode : BitVec 4) : Bool :=
  rsvd == 0 && (opcode == 1 || opcode == 2 || opcode == 3 || opcode == 4)

/-- A command is well-formed when it is one of the four, or an ILLEGAL whose fields are not those of a legal word. -/
def Instr.wf : Instr → Bool
  | .encode => true
  | .decode => true
  | .hexEnc => true
  | .hexDec => true
  | .illegal rsvd opcode => !legalFields rsvd opcode

end Sys2Proof
end

