-- ==== Sys2Proof/Decode.lean ====
section
/-! DEFINITION. The CMD word's fields, the decoder (spec 30_encoding.md R70 to R74), the little-endian byte order of a
bus transfer (20_memory.md R52), and after them the encoder, written from the same opcode map. -/

namespace Sys2Proof

/-- `OPCODE = w[3:0]` (R70). -/
def opcodeField (w : Word) : BitVec 4 := w.extractLsb' 0 4

/-- `RSVD = w[31:4]` (R70). -/
def rsvdField (w : Word) : BitVec 28 := w.extractLsb' 4 28

/-- The decoder of R74, total on the 2^32 words. -/
def decodeWord (w : Word) : Instr :=
  if rsvdField w ≠ 0 then .illegal (rsvdField w) (opcodeField w)
  else if opcodeField w = 1 then .encode
  else if opcodeField w = 2 then .decode
  else if opcodeField w = 3 then .hexEnc
  else if opcodeField w = 4 then .hexDec
  else .illegal (rsvdField w) (opcodeField w)

/-- Byte `k` of a transferred value is its bits `[8k+7:8k]` (R52). -/
def wordByte (w : Word) (k : Nat) : Byte := w.extractLsb' (8 * k) 8

/-- The `n` bytes of a transferred value, byte 0 first (R52). -/
def leBytes (n : Nat) (w : Word) : Bytes := (List.range n).map (wordByte w)

/-- The number whose little-endian bytes these are (R52). -/
def leNat : Bytes → Nat
  | [] => 0
  | b :: bs => b.toNat + 256 * leNat bs

/-- The value of a transfer, from its bytes, byte 0 first (R52). -/
def leWord (bs : Bytes) : Word := BitVec.ofNat 32 (leNat bs)

/-- Why a byte string is no CMD word. -/
inductive DecodeError where
  /-- A CMD word has 32 bits and no other length (R70): `n` bytes are not one. -/
  | wrongLength (n : Nat)
deriving DecidableEq, Repr

/-- The decoder on the bytes of a CMD write, as the bus lays them out (R52, R70). -/
def decodeBytes (bs : Bytes) : Except DecodeError Instr :=
  if bs.length = 4 then .ok (decodeWord (leWord bs)) else .error (.wrongLength bs.length)

/-- The CMD word of a command (R71, R72). -/
def encode : Instr → Word
  | .encode => 0x00000001
  | .decode => 0x00000002
  | .hexEnc => 0x00000003
  | .hexDec => 0x00000004
  | .illegal rsvd opcode => rsvd ++ opcode

/-- The bytes of the CMD write that starts a command. -/
def encodeBytes (i : Instr) : Bytes := leBytes 4 (encode i)

/-- The command the decoder reads from the `nbits` low bits of `w`, every bit above them being 0. -/
def decodeTableWord (nbits w : Nat) : Option Instr :=
  (decodeBytes (leBytes 4 (BitVec.ofNat 32 (w % 2 ^ nbits)))).toOption

end Sys2Proof
end

