-- ==== Sys2Proof/Config.lean ====
section
/-! DEFINITION. The parameters a model of the block takes (spec 00_scope.md R7) and the values the spec leaves
unspecified, as constants without a body (93_implementation_defined.md U1, U2, U4, U5). -/

namespace Sys2Proof

/-- ODD_HEX: what hexToBytes does with an odd length of 3 or more (R7, 92_eei_decisions.md D14). -/
inductive OddHex where
  | reject
  | truncate
deriving DecidableEq, Repr

/-- SHORT_DECODE: what DECODE does with a 1-character input (R7, 92_eei_decisions.md D15). -/
inductive ShortDecode where
  | error
  | empty
deriving DecidableEq, Repr

/-- The parameters of R7, as plain data that State carries, so that a statement about every state is a statement about
every parameter value (91_not_in_source.md N3, N9, N10). DESIGN CHOICE (safe), log 2. -/
structure Config where
  /-- KEY. -/
  key : Bytes
  /-- IV. -/
  iv : Bytes
  /-- N_IN, the capacity of IN_BUF in bytes. -/
  nIn : Nat
  /-- BASE, the bus address of the window. -/
  base : Nat
  oddHex : OddHex
  shortDecode : ShortDecode
deriving DecidableEq, Repr

/-- N_OUT, the capacity of OUT_BUF in bytes (R7). -/
def Config.nOut (c : Config) : Nat := 2 * c.nIn + 32

/-- The legal parameter values of R7. An invalid KEY or IV LENGTH is a legal parameter (R126, R127). -/
abbrev Config.wf (c : Config) : Prop :=
  c.key.length ≤ 255 ∧ c.iv.length ≤ 255 ∧ 16 ≤ c.nIn ∧ c.nIn ≤ 0x7FF0 ∧ c.base % 0x40000 = 0

/-- The default KEY of R7, the ASCII bytes of "89H49I12T20E542N17D4E5A47R184LKL". -/
def defaultKey : Bytes :=
  [0x38, 0x39, 0x48, 0x34, 0x39, 0x49, 0x31, 0x32, 0x54, 0x32, 0x30, 0x45, 0x35, 0x34, 0x32, 0x4e,
   0x31, 0x37, 0x44, 0x34, 0x45, 0x35, 0x41, 0x34, 0x37, 0x52, 0x31, 0x38, 0x34, 0x4c, 0x4b, 0x4c]

/-- The default IV of R7, the ASCII bytes of "0543737198408118". -/
def defaultIv : Bytes :=
  [0x30, 0x35, 0x34, 0x33, 0x37, 0x33, 0x37, 0x31, 0x39, 0x38, 0x34, 0x30, 0x38, 0x31, 0x31, 0x38]

/-- The defaults of R7. BASE has none there (OPEN, 92_eei_decisions.md D2): 0 is a DESIGN CHOICE (unsafe for a claim
about reset's BASE only), log 1. -/
def Config.default : Config :=
  { key := defaultKey, iv := defaultIv, nIn := 4096, base := 0, oddHex := .reject, shortDecode := .error }

/-- The value of an unspecified byte, drawn at each read (U1, U2, U4; 92_eei_decisions.md D39): `draw` numbers the
event that reads, `off` is the byte's offset in the window. A free value, log 4. -/
opaque Config.freeByte (draw off : Nat) : Byte

/-- How many host events go between an accept and its completion step (U5; 45_commands.md R171): finite and otherwise
open. `draw` numbers the accept. A free value, log 5. -/
opaque Config.latency (draw : Nat) : Nat

end Sys2Proof
end

