-- ==== Sys2Proof/Machine/State.lean ====
section
/-! DEFINITION. The machine's state, as plain data: everything spec 10_state.md gives the block (R21 to R31), the reset
input's level, the parameters, and the model's own bookkeeping of the outside world; the reasons a step can stop; and
the state right after reset (70_reset_and_hazards.md R230). -/

namespace Sys2Proof.Machine

/-- SEQ, the sequencer state (R31). -/
inductive Seq where
  | idle
  | busy
deriving DecidableEq, Repr

/-- DIR, the direction of the current cipher operation (R31). -/
inductive Dir where
  | enc
  | dec
deriving DecidableEq, Repr

/-- The error kinds of 60_exceptions.md R200; `errKindCode` gives their codes. -/
inductive ErrKind where
  | none
  | emptyInput
  | encrypt
  | decrypt
  | hex
  | cmd
deriving DecidableEq, Repr

/-- The error causes of 60_exceptions.md R201; `errCauseCode` gives their codes. -/
inductive ErrCause where
  | none
  | nullInput
  | zeroLen
  | keyLen
  | ivLen
  | blockAlign
  | hexDigit
  | hexOdd
  | noData
  | illegalOp
  | lenRange
deriving DecidableEq, Repr

/-- The fields of STATUS (R23). Its reserved bits have no storage; the host only reads the register, as the word
`statusWord` (log 20). -/
structure Status where
  busy : Bool
  done : Bool
  err : Bool
  outNull : Bool
  ovr : Bool
  errKind : ErrKind
  errCause : ErrCause
  lastOp : BitVec 4
deriving DecidableEq, Repr

/-- STATUS = 0x00000000. -/
def Status.zero : Status :=
  { busy := false, done := false, err := false, outNull := false, ovr := false, errKind := .none, errCause := .none,
    lastOp := 0 }

/-- A buffer's contents: (index, byte) pairs with strictly rising indices (`Memory.wf`). An unlisted index holds an
unspecified byte: a read of it is a free draw (log 4), so no listed entry can equal what an unlisted one reads as. -/
abbrev Memory := List Host.Cell

/-- What a bus read gave the host: the data of `MemRead(addr, n)`, zero-extended (R9, R11). The model's own, log 13. -/
structure ReadResponse where
  addr : Nat
  n : Nat
  value : Word
deriving DecidableEq, Repr

/-- The state. The fields from `key` to `rk` are the spec's (R21 to R31), `resetAsserted` is the reset input's level
(R230), `cfg` the parameters (R7), and the rest the model's own. -/
structure State where
  /-- KEY (R29). -/
  key : Bytes
  /-- IV (R30). -/
  iv : Bytes
  /-- STATUS (R23). -/
  status : Status
  /-- IN_LEN (R24). -/
  inLen : Word
  /-- IN_CTRL.IN_NULL, the one stored bit of IN_CTRL (R25). -/
  inNull : Bool
  /-- OUT_LEN (R26). -/
  outLen : Word
  /-- IN_BUF (R27), by index. -/
  inBuf : Memory
  /-- OUT_BUF (R28), by index. -/
  outBuf : Memory
  /-- SEQ (R31). -/
  seq : Seq
  /-- PEND (R31). -/
  pend : Word
  /-- DIR (R31). -/
  dir : Dir
  /-- CHAIN (R31). -/
  chain : Block
  /-- RK (R31, R120). -/
  rk : List Quad
  /-- The reset input is asserted (R230, R233). -/
  resetAsserted : Bool
  /-- The parameters (R7). -/
  cfg : Config
  /-- The host's transactions still to come, in bus order (R61, R75). The model's own, log 6. -/
  hostOps : List HostOp
  /-- How many host events still go before the completion step (R171). The model's own, log 5. -/
  coreWait : Nat
  /-- The number of the next free draw (92_eei_decisions.md D39). The model's own, log 4. -/
  draws : Nat
  /-- The host's read responses, newest first. The model's own, log 13. -/
  reads : List ReadResponse
deriving DecidableEq, Repr

/-- The reasons a step stops with a fault: the two bus errors. Both are faults of the HOST agent
(93_implementation_defined.md U11): the block's state is the one before the access. Safe: the hardware goes on, the
model stops (log 7). -/
inductive Fault where
  /-- Raised by a host access to the registers that is not 32 bits wide and aligned to 4 (20_memory.md R53). Safe. -/
  | registerBusError
  /-- Raised by a host access elsewhere in the window that is not 8, 16 or 32 bits wide and naturally aligned
  (20_memory.md R54, R55). Safe. -/
  | windowBusError
deriving DecidableEq, Repr

/-- The reasons a step has no meaning. -/
inductive Refusal where
  /-- Raised by an arm of exec whose instruction has no meaning in the model. No arm raises it. Safe. -/
  | notModelled (mnemonic : String)
  /-- Raised by a host access to an address outside the window: "Everything outside the window belongs to the platform"
  (20_memory.md R51). Safe (log 8). -/
  | outsideWindow
deriving DecidableEq, Repr

/-- What one step, access or command answers. -/
abbrev Outcome := Host.Outcome

/-- The state when reset is deasserted, for the parameters `c` (R230, R231). PEND, DIR, CHAIN and RK are unspecified
there and no rule reads them before a command writes them: their values here are a DESIGN CHOICE, log 3. -/
def State.resetWith (c : Config) : State :=
  { key := c.key, iv := c.iv, status := Status.zero, inLen := 0, inNull := false, outLen := 0, inBuf := [], outBuf := [],
    seq := .idle, pend := 0, dir := .enc, chain := Block.zero,
    rk := List.replicate (4 * (c.key.length / 4 + 7)) Quad.zero,
    resetAsserted := false, cfg := c, hostOps := [], coreWait := 0, draws := 0, reads := [] }

/-- The machine right after reset, with the default parameters of R7. -/
def State.reset : State := State.resetWith Config.default

end Sys2Proof.Machine
end

