-- ==== Sys2Proof/Machine/Flags.lean ====
section
/-! DEFINITION. STATUS: the codes of its fields (spec 60_exceptions.md R200, R201), the word the host reads
(10_state.md R23), and how accept, a dropped write and the two completions set its fields (45_commands.md R170, R178,
R179; 70_reset_and_hazards.md R237, R238). -/

namespace Sys2Proof.Machine

/-- The codes of R200. -/
def errKindCode : ErrKind → BitVec 4
  | .none => 0
  | .emptyInput => 1
  | .encrypt => 2
  | .decrypt => 3
  | .hex => 4
  | .cmd => 5

/-- The codes of R201. -/
def errCauseCode : ErrCause → BitVec 4
  | .none => 0
  | .nullInput => 1
  | .zeroLen => 2
  | .keyLen => 3
  | .ivLen => 4
  | .blockAlign => 5
  | .hexDigit => 6
  | .hexOdd => 7
  | .noData => 8
  | .illegalOp => 9
  | .lenRange => 10

/-- STATUS as the host reads it, from bit 31 down: reserved, LAST_OP, reserved, ERR_CAUSE, reserved, ERR_KIND,
reserved, OVR, OUT_NULL, ERR, DONE, BUSY (R23). -/
def statusWord (st : Status) : Word :=
  0#4 ++ st.lastOp ++ 0#4 ++ errCauseCode st.errCause ++ 0#4 ++ errKindCode st.errKind ++ 0#3 ++
    BitVec.ofBool st.ovr ++ BitVec.ofBool st.outNull ++ BitVec.ofBool st.err ++ BitVec.ofBool st.done ++
    BitVec.ofBool st.busy

/-- IN_CTRL as the host reads it: IN_NULL in bit 0, bits 31:1 read as 0 (R25). -/
def inCtrlWord (inNull : Bool) : Word := 0#31 ++ BitVec.ofBool inNull

/-- `STATUS <- 0 ; STATUS.BUSY <- 1 ; STATUS.LAST_OP <- w[3:0]` (R170). -/
def statusAccepted (opcode : BitVec 4) : Status := { Status.zero with busy := true, lastOp := opcode }

/-- `STATUS.OVR <- 1` (R237, R238). -/
def statusDropped (st : Status) : Status := { st with ovr := true }

/-- The STATUS fields a successful completion sets (R178): OVR and LAST_OP keep their values. -/
def statusOk (outNull : Bool) (st : Status) : Status :=
  { st with busy := false, done := true, err := false, outNull := outNull, errKind := .none, errCause := .none }

/-- The STATUS fields a failed completion sets (R179): OVR and LAST_OP keep their values. -/
def statusError (kind : ErrKind) (cause : ErrCause) (st : Status) : Status :=
  { st with busy := false, done := true, err := true, outNull := true, errKind := kind, errCause := cause }

end Sys2Proof.Machine
end

