-- ==== Sys2Proof/Machine/Ops.lean ====
section
/-! DEFINITION. The named operations over the buffers and registers, and the three shared operations of a command's
life: accept (spec 45_commands.md R170), successful completion (R178) and failed completion (R179). The block has no
traps (60_exceptions.md R204): a failed completion is how an error is taken, and nothing returns from it. -/

namespace Sys2Proof.Machine

/-- The offset of IN_BUF in the window (20_memory.md R51). -/
def inBufBase : Nat := 0x10000

/-- The offset of OUT_BUF in the window (20_memory.md R51). -/
def outBufBase : Nat := 0x20000

/-- The canonical form of a buffer: strictly rising indices. -/
abbrev Memory.wf (m : Memory) : Prop := (m.map Prod.fst).Pairwise (· < ·)

/-- The byte at index `a`; `none` where the byte is unspecified. -/
def Memory.read : Memory → Nat → Option Byte
  | [], _ => none
  | (k, b) :: m, a => if k = a then some b else Memory.read m a

/-- Store a byte at index `a`, keeping the indices rising. -/
def Memory.write : Memory → Nat → Byte → Memory
  | [], a, b => [(a, b)]
  | (k, c) :: m, a, b =>
    if a < k then (a, b) :: (k, c) :: m
    else if a = k then (a, b) :: m
    else (k, c) :: Memory.write m a b

/-- The buffer that holds the bytes `bs` from index `k` on and nothing else. -/
def Memory.ofBytes (k : Nat) : Bytes → Memory
  | [] => []
  | b :: bs => (k, b) :: Memory.ofBytes (k + 1) bs

/-- `IN[i]` (R60): an unspecified byte is drawn (93_implementation_defined.md U2). -/
def State.inByte (s : State) (i : Nat) : Byte :=
  (s.inBuf.read i).getD (Config.freeByte s.draws (inBufBase + i))

/-- Accept of the CMD word `w` (R170). Every byte of OUT_BUF becomes unspecified; the number of host events before the
completion step is drawn (R171). -/
def accept (w : Word) (s : State) : State :=
  { s with
    pend := w, status := statusAccepted (opcodeField w), outLen := 0, outBuf := [], seq := .busy,
    coreWait := Config.latency s.draws, draws := s.draws + 1 }

/-- The state after `complete Ok(r)` (R178), with `none` for ABSENT. Bytes of OUT_BUF at or above `|r|` are unspecified
in it (R28, log 10). One number of draws is used up. -/
def okState (r : Option Bytes) (s : State) : State :=
  { s with
    status := statusOk r.isNone s.status, outLen := BitVec.ofNat 32 (r.getD []).length,
    outBuf := Memory.ofBytes 0 (r.getD []), seq := .idle, draws := s.draws + 1 }

/-- `complete Ok(r)` (R178). -/
def complete (r : Option Bytes) (s : State) : Outcome State Fault Refusal := .next (okState r s)

/-- The state after `raise Error(kind, cause)` (R179): OUT_BUF is entirely unspecified in it. One number of draws is used
up. -/
def errorState (kind : ErrKind) (cause : ErrCause) (s : State) : State :=
  { s with
    status := statusError kind cause s.status, outLen := 0, outBuf := [], seq := .idle, draws := s.draws + 1 }

/-- `raise Error(kind, cause)` (R179): an error is a completion and no trap (R204). -/
def raiseError (kind : ErrKind) (cause : ErrCause) (s : State) : Outcome State Fault Refusal :=
  .next (errorState kind cause s)

end Sys2Proof.Machine
end

