-- ==== Sys2Proof/Machine/Bus.lean ====
section
/-! DEFINITION. The bus window (spec 20_memory.md): the map, the access checks, what a read answers and what a write
does; the reset input (70_reset_and_hazards.md R230 to R233); and one event of the outside world. -/

namespace Sys2Proof.Machine

/-! ### The map (R50, R51) -/

/-- The size of the window (R50). -/
def windowSize : Nat := 0x40000

/-- The offset `addr - BASE` the block decodes; `none` outside the window (R50, R51). -/
def busOffset (c : Config) (addr : Nat) : Option Nat :=
  if c.base ≤ addr ∧ addr < c.base + windowSize then some (addr - c.base) else none

/-- What lies at an offset (R51). -/
inductive Region where
  /-- The registers, 0x00000 to 0x00013. -/
  | register
  /-- The IN_BUF window with its RAZ/WI tail, 0x10000 to 0x1FFFF. -/
  | inWindow
  /-- The OUT_BUF window with its RAZ/WI tail, 0x20000 to 0x2FFFF. -/
  | outWindow
  /-- The reserved ranges. -/
  | reserved
deriving DecidableEq, Repr

/-- The region of an offset (R51). -/
def region (off : Nat) : Region :=
  if off < 0x14 then .register
  else if off < inBufBase then .reserved
  else if off < outBufBase then .inWindow
  else if off < 0x30000 then .outWindow
  else .reserved

/-- The bus error of an access of `n` bytes at an offset, if it gets one: a register access must be 32 bits wide and
aligned to 4 (R53), any other 8, 16 or 32 bits wide and naturally aligned (R54, R55). -/
def accessFault (off n : Nat) : Option Fault :=
  if region off = .register then
    if n = 4 ∧ off % 4 = 0 then none else some .registerBusError
  else if (n = 1 ∨ n = 2 ∨ n = 4) ∧ off % n = 0 then none
  else some .windowBusError

/-! ### Reads (R52, R55, R56, R58) -/

/-- The 32-bit register that holds an offset below 0x14, as the host reads it: CMD reads as 0 (R22). -/
def registerWord (s : State) (off : Nat) : Word :=
  if off < 0x4 then 0
  else if off < 0x8 then statusWord s.status
  else if off < 0xC then s.inLen
  else if off < 0x10 then inCtrlWord s.inNull
  else s.outLen

/-- The storage byte at an offset, `none` where it is unspecified: the whole window (R51, R52). -/
def State.peek (s : State) (off : Nat) : Option Byte :=
  match region off with
  | .register => some (wordByte (registerWord s off) (off % 4))
  | .reserved => some 0
  | .inWindow => if off - inBufBase < s.cfg.nIn then s.inBuf.read (off - inBufBase) else some 0
  | .outWindow => if off - outBufBase < s.cfg.nOut then s.outBuf.read (off - outBufBase) else some 0

/-- The byte a bus read sees at an offset: an unspecified byte is drawn (93_implementation_defined.md U1, U2), and while
reset is asserted every byte is (R233, U4). -/
def State.busByte (s : State) (off : Nat) : Byte :=
  if s.resetAsserted then Config.freeByte s.draws off
  else (s.peek off).getD (Config.freeByte s.draws off)

/-- The data of a read of `n` bytes at an offset: byte k of the transfer is the storage byte at `off + k` (R52). -/
def State.readData (s : State) (off n : Nat) : Word :=
  leWord ((List.range n).map fun k => s.busByte (off + k))

/-- Hand the data of a read to the host. The block's state does not change (R58); a number of draws is used up. -/
def respond (addr n : Nat) (v : Word) (s : State) : State :=
  { s with reads := ⟨addr, n, v⟩ :: s.reads, draws := s.draws + 1 }

/-! ### Writes (R53 to R57, R170, R237, R238) -/

/-- A write that is dropped because BUSY = 1 (R237, R238). -/
def dropWrite (s : State) : State := { s with status := statusDropped s.status }

/-- A write to an input (IN_LEN, IN_CTRL, IN_BUF with its tail): `f` when BUSY = 0, dropped when BUSY = 1 (R237). -/
def inputWrite (f : State → State) (s : State) : State := if s.status.busy then dropWrite s else f s

/-- A write of `w` to CMD: accepted when BUSY = 0 (R170), dropped when BUSY = 1 (R238). -/
def cmdWrite (w : Word) (s : State) : State := if s.status.busy then dropWrite s else accept w s

/-- Store `bs` in IN_BUF from index `i` on; a byte at or beyond N_IN is ignored (R54, R56). -/
def storeIn (nIn : Nat) : Nat → Bytes → Memory → Memory
  | _, [], m => m
  | i, b :: bs, m => storeIn nIn (i + 1) bs (if i < nIn then m.write i b else m)

/-- What an access-checked write of the low `n` bytes of `v` at an offset does (R51). Writes to STATUS, OUT_LEN, the
OUT_BUF window and the reserved ranges are ignored and never set OVR (R35, R55, R57). -/
def writeData (off n : Nat) (v : Word) (s : State) : State :=
  match region off with
  | .register =>
    if off < 0x4 then cmdWrite v s
    else if off < 0x8 then s
    else if off < 0xC then inputWrite (fun s => { s with inLen := v }) s
    else if off < 0x10 then inputWrite (fun s => { s with inNull := v.getLsbD 0 }) s
    else s
  | .inWindow =>
    inputWrite (fun s => { s with inBuf := storeIn s.cfg.nIn (off - inBufBase) (leBytes n v) s.inBuf }) s
  | .outWindow => s
  | .reserved => s

/-! ### Transactions -/

/-- The checks of a bus access of `n` bytes at `addr`, then `k` on its offset. While reset is asserted an access has no
effect and gets no bus error (R233, log 9). -/
def withAccess (s : State) (addr n : Nat) (k : Nat → Outcome State Fault Refusal) : Outcome State Fault Refusal :=
  match busOffset s.cfg addr with
  | none => .refused .outsideWindow
  | some off =>
    if s.resetAsserted then k off
    else
      match accessFault off n with
      | some f => .fault f
      | none => k off

/-- `MemRead(addr, n)`. -/
def memRead (addr n : Nat) (s : State) : Outcome State Fault Refusal :=
  withAccess s addr n fun off => .next (respond addr n (s.readData off n) s)

/-- `MemWrite(addr, n, v)`. -/
def memWrite (addr n : Nat) (v : Word) (s : State) : Outcome State Fault Refusal :=
  withAccess s addr n fun off => .next (if s.resetAsserted then s else writeData off n v s)

/-- One turn of POLL (R75): a read of STATUS; POLL goes on while the value read has bit 0 set (log 14). -/
def pollTurn (s : State) : Outcome State Fault Refusal :=
  withAccess s (s.cfg.base + 4) 4 fun off =>
    let v := s.readData off 4
    let s' := respond (s.cfg.base + 4) 4 v s
    .next (if v.getLsbD 0 then { s' with hostOps := .poll :: s'.hostOps } else s')

/-- The reset input takes a level (R230 to R233). On its fall the state is R230's, with the parameters and the outside
world as they stand; a command in flight is abandoned (R232). -/
def resetInput (asserted : Bool) (s : State) : State :=
  if asserted then { s with resetAsserted := true }
  else if s.resetAsserted then
    { State.resetWith s.cfg with
      hostOps := s.hostOps, coreWait := s.coreWait, draws := s.draws + 1, reads := s.reads }
  else s

/-- One event of the outside world, already taken off `hostOps`. -/
def hostEvent (op : HostOp) (s : State) : Outcome State Fault Refusal :=
  match op with
  | .read addr n => memRead addr n s
  | .write addr n v => memWrite addr n v s
  | .poll => pollTurn s
  | .reset asserted => .next (resetInput asserted s)

/-! ### Whose turn it is (R171) -/

/-- The core takes its completion step: a command is in flight, reset is not asserted, and the host events that go
before it are over (R171; log 5). -/
def coreNext (s : State) : Bool :=
  s.seq == .busy && !s.resetAsserted && (s.coreWait == 0 || s.hostOps.isEmpty)

/-- The next host event takes effect; with none to come the block stays as it is (60_exceptions.md R209). -/
def hostNext (s : State) : Outcome State Fault Refusal :=
  match s.hostOps with
  | [] => .next s
  | op :: rest => hostEvent op { s with hostOps := rest, coreWait := s.coreWait - 1 }

/-- The state with the CMD word `w` just accepted and the completion step next: what a fetch is on this hardware, where
a command reaches the block as the data of a CMD write (R63, R170; log 17). -/
def placeCommand (w : Word) (s : State) : State := { accept w s with coreWait := 0, resetAsserted := false }

end Sys2Proof.Machine
end

