-- ==== Sys2Proof/Machine/Aes.lean ====
section
/-! DEFINITION. The AES block cipher and the CBC mode (spec 41_aes_cbc.md). A 16-byte block is held as its AES State, four
columns of four bytes (R115), and a word of the key schedule as a 4-byte string (R120). -/

namespace Sys2Proof.Machine

/-! ### Field arithmetic (R112) -/

/-- `xtime(a)` (R112). -/
def xtime (a : Byte) : Byte := (a <<< 1) ^^^ (if a.getLsbD 7 then 0x1B else 0x00)

/-- `gmul(a, b)`: the XOR, over the set bits i of `b`, of xtime applied i times to `a` (R112). -/
def gmul (a b : Byte) : Byte :=
  (List.range 8).foldl (fun acc i => if b.getLsbD i then acc ^^^ xtime^[i] a else acc) 0

/-- `ginv(a)`: the multiplicative inverse, and 0 for 0 (R112). It is the 254th power, since the nonzero bytes form a
group of order 255 (DEDUCED, log 16; `gmul_ginv` is the check). -/
def ginv (a : Byte) : Byte :=
  let a2 := gmul a a
  let a3 := gmul a a2
  let a6 := gmul a3 a3
  let a12 := gmul a6 a6
  let a15 := gmul a12 a3
  let a30 := gmul a15 a15
  let a60 := gmul a30 a30
  let a120 := gmul a60 a60
  let a240 := gmul a120 a120
  gmul (gmul a240 a12) a2

/-! ### The S-boxes (R113, R114) -/

/-- `rotl8(b, s)` (R113). -/
def rotl8 (b : Byte) (s : Nat) : Byte := (b <<< s) ||| (b >>> (8 - s))

/-- R113's defining formula of SBOX. -/
def sboxFormula (a : Byte) : Byte :=
  let b := ginv a
  b ^^^ rotl8 b 1 ^^^ rotl8 b 2 ^^^ rotl8 b 3 ^^^ rotl8 b 4 ^^^ 0x63

/-- R113's table: row `a[7:4]`, whose 16 entries are the 16 bytes of the number, column 0 the most significant. -/
def sboxRows : List Nat :=
  [0x637c777bf26b6fc53001672bfed7ab76, 0xca82c97dfa5947f0add4a2af9ca472c0,
   0xb7fd9326363ff7cc34a5e5f171d83115, 0x04c723c31896059a071280e2eb27b275,
   0x09832c1a1b6e5aa0523bd6b329e32f84, 0x53d100ed20fcb15b6acbbe394a4c58cf,
   0xd0efaafb434d338545f9027f503c9fa8, 0x51a3408f929d38f5bcb6da2110fff3d2] ++
  [0xcd0c13ec5f974417c4a77e3d645d1973, 0x60814fdc222a908846eeb814de5e0bdb,
   0xe0323a0a4906245cc2d3ac629195e479, 0xe7c8376d8dd54ea96c56f4ea657aae08,
   0xba78252e1ca6b4c6e8dd741f4bbd8b8a, 0x703eb5664803f60e613557b986c11d9e,
   0xe1f8981169d98e949b1e87e9ce5528df, 0x8ca1890dbfe6426841992d0fb054bb16]

/-- R114's table, laid out as `sboxRows`. -/
def invSboxRows : List Nat :=
  [0x52096ad53036a538bf40a39e81f3d7fb, 0x7ce339829b2fff87348e4344c4dee9cb,
   0x547b9432a6c2233dee4c950b42fac34e, 0x082ea16628d924b2765ba2496d8bd125,
   0x72f8f66486689816d4a45ccc5d65b692, 0x6c704850fdedb9da5e154657a78d9d84,
   0x90d8ab008cbcd30af7e45805b8b34506, 0xd02c1e8fca3f0f02c1afbd0301138a6b] ++
  [0x3a9111414f67dcea97f2cfcef0b4e673, 0x96ac7422e7ad3585e2f937e81c75df6e,
   0x47f11a711d29c5896fb7620eaa18be1b, 0xfc563e4bc6d279209adbc0fe78cd5af4,
   0x1fdda8338807c731b11210592780ec5f, 0x60517fa919b54a0d2de57a9f93c99cef,
   0xa0e03b4dae2af5b0c8ebbb3c83539961, 0x172b047eba77d626e169146355210c7d]

/-- The entry of a 16 by 16 table of bytes for `a`: row `a[7:4]`, column `a[3:0]`. -/
def tableByte (rows : List Nat) (a : Byte) : Byte :=
  BitVec.ofNat 8 (rows.getD (a.toNat / 16) 0 >>> (8 * (15 - a.toNat % 16)))

/-- SBOX (R113). -/
def sbox (a : Byte) : Byte := tableByte sboxRows a

/-- INV_SBOX (R114). -/
def invSbox (a : Byte) : Byte := tableByte invSboxRows a

/-! ### 4-byte strings: columns of the State and words of the key schedule -/

/-- A byte operation on each byte of a 4-byte string. -/
def quadMap (f : Byte → Byte) (q : Quad) : Quad := ⟨f q.b0, f q.b1, f q.b2, f q.b3⟩

/-- Bytewise XOR of 4-byte strings (R119, R120). -/
def quadXor (p q : Quad) : Quad := ⟨p.b0 ^^^ q.b0, p.b1 ^^^ q.b1, p.b2 ^^^ q.b2, p.b3 ^^^ q.b3⟩

/-- `RotWord([a0,a1,a2,a3]) = [a1,a2,a3,a0]` (R120). -/
def rotWord (q : Quad) : Quad := ⟨q.b1, q.b2, q.b3, q.b0⟩

/-- SubWord (R120). -/
def subWord (q : Quad) : Quad := quadMap sbox q

/-- MixColumns on one column (R118). -/
def mixColumn (q : Quad) : Quad :=
  ⟨gmul 2 q.b0 ^^^ gmul 3 q.b1 ^^^ q.b2 ^^^ q.b3, gmul 2 q.b1 ^^^ gmul 3 q.b2 ^^^ q.b3 ^^^ q.b0,
   gmul 2 q.b2 ^^^ gmul 3 q.b3 ^^^ q.b0 ^^^ q.b1, gmul 2 q.b3 ^^^ gmul 3 q.b0 ^^^ q.b1 ^^^ q.b2⟩

/-- InvMixColumns on one column (R118). -/
def invMixColumn (q : Quad) : Quad :=
  ⟨gmul 14 q.b0 ^^^ gmul 11 q.b1 ^^^ gmul 13 q.b2 ^^^ gmul 9 q.b3,
   gmul 14 q.b1 ^^^ gmul 11 q.b2 ^^^ gmul 13 q.b3 ^^^ gmul 9 q.b0,
   gmul 14 q.b2 ^^^ gmul 11 q.b3 ^^^ gmul 13 q.b0 ^^^ gmul 9 q.b1,
   gmul 14 q.b3 ^^^ gmul 11 q.b0 ^^^ gmul 13 q.b1 ^^^ gmul 9 q.b2⟩

/-! ### The State's transformations (R115 to R119) -/

/-- A column operation on each column. -/
def blockMap (f : Quad → Quad) (s : Block) : Block := ⟨f s.c0, f s.c1, f s.c2, f s.c3⟩

/-- 16-byte XOR (R123, R124). -/
def blockXor (s t : Block) : Block :=
  ⟨quadXor s.c0 t.c0, quadXor s.c1 t.c1, quadXor s.c2 t.c2, quadXor s.c3 t.c3⟩

/-- SubBytes (R116). -/
def subBytes (s : Block) : Block := blockMap (quadMap sbox) s

/-- InvSubBytes (R116). -/
def invSubBytes (s : Block) : Block := blockMap (quadMap invSbox) s

/-- ShiftRows: `s'[r][c] = s[r][(c + r) mod 4]` (R117). -/
def shiftRows (s : Block) : Block :=
  ⟨⟨s.c0.b0, s.c1.b1, s.c2.b2, s.c3.b3⟩, ⟨s.c1.b0, s.c2.b1, s.c3.b2, s.c0.b3⟩,
   ⟨s.c2.b0, s.c3.b1, s.c0.b2, s.c1.b3⟩, ⟨s.c3.b0, s.c0.b1, s.c1.b2, s.c2.b3⟩⟩

/-- InvShiftRows: `s'[r][c] = s[r][(c - r) mod 4]` (R117). -/
def invShiftRows (s : Block) : Block :=
  ⟨⟨s.c0.b0, s.c3.b1, s.c2.b2, s.c1.b3⟩, ⟨s.c1.b0, s.c0.b1, s.c3.b2, s.c2.b3⟩,
   ⟨s.c2.b0, s.c1.b1, s.c0.b2, s.c3.b3⟩, ⟨s.c3.b0, s.c2.b1, s.c1.b2, s.c0.b3⟩⟩

/-- MixColumns (R118). -/
def mixColumns (s : Block) : Block := blockMap mixColumn s

/-- InvMixColumns (R118). -/
def invMixColumns (s : Block) : Block := blockMap invMixColumn s

/-- Word `i` of a key schedule. -/
def scheduleWord (w : List Quad) (i : Nat) : Quad := w.getD i Quad.zero

/-- Round key `i`: the words `w[4i] .. w[4i+3]`, one a column (R119). -/
def roundKey (w : List Quad) (i : Nat) : Block :=
  ⟨scheduleWord w (4 * i), scheduleWord w (4 * i + 1), scheduleWord w (4 * i + 2), scheduleWord w (4 * i + 3)⟩

/-- `AddRoundKey(s, i)` (R119). -/
def addRoundKey (w : List Quad) (s : Block) (i : Nat) : Block := blockXor s (roundKey w i)

/-! ### Key expansion (R111, R120) -/

/-- The key is valid iff its length is 16, 24 or 32 (R111). -/
def keyLenValid (key : Bytes) : Bool := key.length == 16 || key.length == 24 || key.length == 32

/-- `Nk = Lk / 4` (R111). -/
def keyWords (key : Bytes) : Nat := key.length / 4

/-- `Nr = Nk + 6` (R111). -/
def keyRounds (key : Bytes) : Nat := keyWords key + 6

/-- `RCON[1..10]` (R120). -/
def rcon (i : Nat) : Byte := [0x00, 0x01, 0x02, 0x04, 0x08, 0x10, 0x20, 0x40, 0x80, 0x1b, 0x36].getD i 0

/-- `w[i]` for `i >= Nk`, from `w[i-1]` and `w[i-Nk]` (R120). -/
def expandWord (nk i : Nat) (prev back : Quad) : Quad :=
  quadXor back
    (if i % nk = 0 then quadXor (subWord (rotWord prev)) ⟨rcon (i / nk), 0, 0, 0⟩
     else if nk = 8 ∧ i % 8 = 4 then subWord prev
     else prev)

/-- The words `w[0 .. Nk)`, the key itself: `w[i] = KEY[4i .. 4i+4)` (R120). -/
def keyPrefix (key : Bytes) : List Quad :=
  (List.range (keyWords key)).map fun i =>
    ⟨key.getD (4 * i) 0, key.getD (4 * i + 1) 0, key.getD (4 * i + 2) 0, key.getD (4 * i + 3) 0⟩

/-- One step of the expansion loop on the words so far, NEWEST FIRST, so that `w[i-1]` is entry 0 and `w[i-Nk]` is entry
`Nk - 1` (R120). -/
def expandStep (nk : Nat) (ws : List Quad) (i : Nat) : List Quad :=
  expandWord nk i (scheduleWord ws 0) (scheduleWord ws (nk - 1)) :: ws

/-- KeyExpansion: the `4*(Nr+1)` words, `w[0]` first (R120). -/
def keyExpansion (key : Bytes) : List Quad :=
  ((List.range' (keyWords key) (4 * (keyRounds key + 1) - keyWords key)).foldl (expandStep (keyWords key))
    (keyPrefix key).reverse).reverse

/-! ### The block cipher (R121, R122), on a schedule `w` of `nr` rounds -/

/-- One inner round of Cipher (R121). -/
def encRound (w : List Quad) (s : Block) (round : Nat) : Block :=
  addRoundKey w (mixColumns (shiftRows (subBytes s))) round

/-- Cipher (R121). -/
def cipher (w : List Quad) (nr : Nat) (block : Block) : Block :=
  addRoundKey w
    (shiftRows (subBytes ((List.range' 1 (nr - 1)).foldl (encRound w) (addRoundKey w block 0)))) nr

/-- One inner round of InvCipher (R122). -/
def decRound (w : List Quad) (s : Block) (round : Nat) : Block :=
  invMixColumns (addRoundKey w (invSubBytes (invShiftRows s)) round)

/-- InvCipher (R122), its rounds from `nr - 1` down to 1. -/
def invCipher (w : List Quad) (nr : Nat) (block : Block) : Block :=
  addRoundKey w
    (invSubBytes (invShiftRows ((List.range' 1 (nr - 1)).reverse.foldl (decRound w) (addRoundKey w block nr)))) 0

/-! ### Byte strings and blocks (R115), CBC (R123, R124) -/

/-- A block from the first 16 bytes of a string, column by column (R115). -/
def loadBlock (b : Bytes) : Block :=
  ⟨⟨b.getD 0 0, b.getD 1 0, b.getD 2 0, b.getD 3 0⟩, ⟨b.getD 4 0, b.getD 5 0, b.getD 6 0, b.getD 7 0⟩,
   ⟨b.getD 8 0, b.getD 9 0, b.getD 10 0, b.getD 11 0⟩, ⟨b.getD 12 0, b.getD 13 0, b.getD 14 0, b.getD 15 0⟩⟩

/-- The 4 bytes of a column. -/
def quadBytes (q : Quad) : Bytes := [q.b0, q.b1, q.b2, q.b3]

/-- The 16 bytes of a block, column by column (R115). -/
def storeBlock (s : Block) : Bytes := quadBytes s.c0 ++ quadBytes s.c1 ++ quadBytes s.c2 ++ quadBytes s.c3

/-- The first `n` 16-byte blocks of a string. -/
def takeBlocks : Nat → Bytes → List Block
  | 0, _ => []
  | n + 1, b => loadBlock b :: takeBlocks n (b.drop 16)

/-- The blocks `P_1 .. P_n` of a string, `n = |P|/16` (R123). -/
def toBlocks (b : Bytes) : List Block := takeBlocks (b.length / 16) b

/-- The string of a list of blocks. -/
def ofBlocks (bs : List Block) : Bytes := bs.flatMap storeBlock

/-- The CBC encryption loop (R123): `C_j = Cipher(P_j ^ CHAIN)`, `CHAIN = C_j`. -/
def cbcEncBlocks (w : List Quad) (nr : Nat) : Block → List Block → List Block
  | _, [] => []
  | chain, p :: ps =>
    let c := cipher w nr (blockXor p chain)
    c :: cbcEncBlocks w nr c ps

/-- The CBC decryption loop (R124): `P_j = InvCipher(C_j) ^ CHAIN`, `CHAIN = C_j`. -/
def cbcDecBlocks (w : List Quad) (nr : Nat) : Block → List Block → List Block
  | _, [] => []
  | chain, c :: cs => blockXor (invCipher w nr c) chain :: cbcDecBlocks w nr c cs

/-- `CBC_Enc(KEY, IV, P)` (R123). -/
def cbcEnc (key iv p : Bytes) : Bytes :=
  ofBlocks (cbcEncBlocks (keyExpansion key) (keyRounds key) (loadBlock iv) (toBlocks p))

/-- `CBC_Dec(KEY, IV, C)` (R124). -/
def cbcDec (key iv c : Bytes) : Bytes :=
  ofBlocks (cbcDecBlocks (keyExpansion key) (keyRounds key) (loadBlock iv) (toBlocks c))

/-- CHAIN after a CBC loop that started from `iv` and went through the ciphertext `c`: its last block, or `iv` where
there is none (R123, R124). -/
def lastChain (iv c : Bytes) : Block := ((toBlocks c).getLast?).getD (loadBlock iv)

end Sys2Proof.Machine
end

