-- ==== Sys2Proof/Machine/Hex.lean ====
section
/-! DEFINITION. The hex encoder and decoder (spec 42_hex.md). -/

namespace Sys2Proof.Machine

/-- `hexDigit(n)`: the ASCII code of the lowercase digit (R150). -/
def hexDigit (n : BitVec 4) : Byte :=
  if n ≤ 9 then 0x30 + n.setWidth 8 else 0x61 + (n.setWidth 8 - 10)

/-- `hexVal(c)`, with `none` for INVALID (R151). -/
def hexVal (c : Byte) : Option Byte :=
  if 0x30 ≤ c ∧ c ≤ 0x39 then some (c - 0x30)
  else if 0x41 ≤ c ∧ c ≤ 0x46 then some (c - 0x37)
  else if 0x61 ≤ c ∧ c ≤ 0x66 then some (c - 0x57)
  else none

/-- bytesToHex on a present byte string: two digits a byte, high nibble first (R152). -/
def bytesToHex : Bytes → Bytes
  | [] => []
  | b :: bs => hexDigit (b.extractLsb' 4 4) :: hexDigit (b.extractLsb' 0 4) :: bytesToHex bs

/-- bytesToHex, ABSENT to ABSENT (R152). -/
def bytesToHexOpt (b : Option Bytes) : Option Bytes := b.map bytesToHex

/-- The results of hexToBytes (R153). -/
inductive HexResult where
  | absent
  | ok (b : Bytes)
  | failOdd
  | failDigit
deriving DecidableEq, Repr

/-- `16*hexVal(s[2i]) + hexVal(s[2i+1])` over the pairs in order; `none` when a consumed character has no hexVal. A last
character without a partner is not looked at (R153). -/
def hexPairs : Bytes → Option Bytes
  | hi :: lo :: rest =>
    match hexVal hi, hexVal lo with
    | some h, some l => (hexPairs rest).map (fun bs => (16 * h + l) :: bs)
    | _, _ => none
  | _ => some []

/-- hexToBytes (R153), its checks in the rule's order: ABSENT, length below 2, odd length, digits. -/
def hexToBytes (oddHex : OddHex) : Option Bytes → HexResult
  | none => .absent
  | some s =>
    if s.length < 2 then .absent
    else if s.length % 2 = 1 ∧ oddHex = .reject then .failOdd
    else match hexPairs s with
      | some b => .ok b
      | none => .failDigit

end Sys2Proof.Machine
end

