-- ==== Sys2Proof/Machine/Operands.lean ====
section
/-! DEFINITION. The operand of a command (spec 30_encoding.md R73, 45_commands.md R172): IN_CTRL, IN_LEN and IN_BUF
decoded to a byte string or ABSENT, after the LEN_RANGE check. -/

namespace Sys2Proof.Machine

/-- `IN_BUF[0..IN_LEN)` (R172). -/
def State.inBytes (s : State) : Bytes := (List.range s.inLen.toNat).map s.inByte

/-- `input`: ABSENT (`none`) if IN_CTRL.IN_NULL = 1, else `IN_BUF[0..IN_LEN)` (R172). -/
def State.input (s : State) : Option Bytes := if s.inNull then none else some s.inBytes

/-- `IN_CTRL.IN_NULL = 0 and IN_LEN > N_IN` (R172): when IN_NULL = 1, IN_LEN is not read. -/
def State.lenOutOfRange (s : State) : Bool := !s.inNull && decide (s.cfg.nIn < s.inLen.toNat)

/-- The common checks of a legal command (R172), then `k` on the operand. -/
def withInput (s : State) (k : Option Bytes → Outcome State Fault Refusal) : Outcome State Fault Refusal :=
  if s.lenOutOfRange then raiseError .cmd .lenRange s else k s.input

end Sys2Proof.Machine
end

