-- ==== Sys2Proof/Machine/Padding.lean ====
section
/-! DEFINITION. The padding unit (spec 40_padding.md). -/

namespace Sys2Proof.Machine

/-- `padLen(L) = 16 - (L mod 16)`, in 1..16 (R100). -/
def padLen (l : Nat) : Nat := 16 - l % 16

/-- `pad(T) = T ++ rep(padLen(|T|), 0x20)` (R101). -/
def pad (t : Bytes) : Bytes := t ++ List.replicate (padLen t.length) 0x20

end Sys2Proof.Machine
end

