-- ==== Sys2Proof/Machine/CipherCommands.lean ====
section
/-! DEFINITION. The commands that use the cipher core: ENCODE (spec 45_commands.md R173) and DECODE (R174), over the
shared operations accept, complete and raiseError. -/

namespace Sys2Proof.Machine

/-- DIR, RK and CHAIN as the initialisation sets them (41_aes_cbc.md R125). -/
def engineState (dir : Dir) (s : State) : State :=
  { s with dir := dir, rk := keyExpansion s.key, chain := loadBlock s.iv }

/-- Cipher initialisation (41_aes_cbc.md R125): the key check (R126), the IV check (R127), then DIR, RK and CHAIN. -/
def initCipher (dir : Dir) (s : State) : Except ErrCause State :=
  if keyLenValid s.key = false then .error .keyLen
  else if s.iv.length ≠ 16 then .error .ivLen
  else .ok (engineState dir s)

/-- The end of ENCODE on an initialised engine: pad, encrypt, hex-encode (R173). CHAIN ends as the last ciphertext
block (R123). -/
def encodeText (t : Bytes) (s : State) : Outcome State Fault Refusal :=
  let c := cbcEnc s.key s.iv (pad t)
  complete (some (bytesToHex c)) { s with chain := lastChain s.iv c }

/-- ENCODE (R173). -/
def execEncode (s : State) : Outcome State Fault Refusal :=
  withInput s fun input =>
    match input with
    | none => raiseError .emptyInput .nullInput s
    | some t =>
      if t.length = 0 then raiseError .emptyInput .zeroLen s
      else
        match initCipher .enc s with
        | .error cause => raiseError .encrypt cause s
        | .ok s' => encodeText t s'

/-- The end of DECODE on an initialised engine: the block check (R128) and the decryption (R174). CHAIN ends as the last
ciphertext block (R124). -/
def decodeCiphertext (c : Bytes) (s : State) : Outcome State Fault Refusal :=
  if c.length % 16 ≠ 0 then raiseError .decrypt .blockAlign s
  else complete (some (cbcDec s.key s.iv c)) { s with chain := lastChain s.iv c }

/-- DECODE of an ABSENT byte string on an initialised engine: SHORT_DECODE says (R174). -/
def decodeAbsent (s : State) : Outcome State Fault Refusal :=
  match s.cfg.shortDecode with
  | .error => raiseError .decrypt .noData s
  | .empty => decodeCiphertext [] s

/-- The cipher initialisation inside DECODE, its failures under the kind DECRYPT (R126, R127), then `k`. -/
def withDecrypt (s : State) (k : State → Outcome State Fault Refusal) : Outcome State Fault Refusal :=
  match initCipher .dec s with
  | .error cause => raiseError .decrypt cause s
  | .ok s' => k s'

/-- DECODE (R174). -/
def execDecode (s : State) : Outcome State Fault Refusal :=
  withInput s fun input =>
    match input with
    | none => raiseError .emptyInput .nullInput s
    | some t =>
      if t.length = 0 then raiseError .emptyInput .zeroLen s
      else
        match hexToBytes s.cfg.oddHex (some t) with
        | .failOdd => raiseError .decrypt .hexOdd s
        | .failDigit => raiseError .decrypt .hexDigit s
        | .absent => withDecrypt s decodeAbsent
        | .ok c => withDecrypt s (decodeCiphertext c)

end Sys2Proof.Machine
end

