-- ==== Sys2Proof/Machine/HexCommands.lean ====
section
/-! DEFINITION. The commands that expose the hex unit: HEX_ENC (spec 45_commands.md R175) and HEX_DEC (R176). -/

namespace Sys2Proof.Machine

/-- HEX_ENC (R175). -/
def execHexEnc (s : State) : Outcome State Fault Refusal :=
  withInput s fun input => complete (bytesToHexOpt input) s

/-- HEX_DEC (R176). -/
def execHexDec (s : State) : Outcome State Fault Refusal :=
  withInput s fun input =>
    match hexToBytes s.cfg.oddHex input with
    | .failOdd => raiseError .hex .hexOdd s
    | .failDigit => raiseError .hex .hexDigit s
    | .absent => complete none s
    | .ok b => complete (some b) s

end Sys2Proof.Machine
end

