-- ==== Sys2Proof/Machine/IllegalCommand.lean ====
section
/-! DEFINITION. The illegal command word (spec 45_commands.md R177). -/

namespace Sys2Proof.Machine

/-- ILLEGAL (R177): the error CMD/ILLEGAL_OP, before the LEN_RANGE check and reading no operand (R172). LAST_OP was set
from the word at accept. -/
def execIllegal (_rsvd : BitVec 28) (_opcode : BitVec 4) (s : State) : Outcome State Fault Refusal :=
  raiseError .cmd .illegalOp s

end Sys2Proof.Machine
end

