-- ==== Sys2Proof/Machine/Step.lean ====
section
/-! DEFINITION. One step: the core's completion step, which runs the command in PEND (spec 45_commands.md R171), or the
next host event; and the placing of a command where the next step runs it. -/

namespace Sys2Proof.Machine

/-- One step of the machine. -/
def step (s : State) : Host.Outcome State Fault Refusal :=
  if coreNext s then exec (decodeWord s.pend) s else hostNext s

/-- The state with the `nbits` low bits of `w` placed as the command the next step runs. -/
def State.withFetchWord (s : State) (nbits w : Nat) : State := placeCommand (BitVec.ofNat 32 (w % 2 ^ nbits)) s

end Sys2Proof.Machine
end

