-- ==== Sys2Proof/Machine/HostProgram.lean ====
section
/-! DEFINITION. The bus-program syntax of spec 30_encoding.md R75: each statement as the bus transactions it stands for,
at offsets relative to BASE. -/

namespace Sys2Proof.Machine

/-- `W32 off, v`. -/
def w32 (c : Config) (off : Nat) (v : Word) : List HostOp := [.write (c.base + off) 4 v]

/-- `W8 off, v`. -/
def w8 (c : Config) (off : Nat) (v : Byte) : List HostOp := [.write (c.base + off) 1 (v.setWidth 32)]

/-- `WSTR off, "text"`, the text as its bytes. -/
def wstr (c : Config) : Nat → Bytes → List HostOp
  | _, [] => []
  | off, b :: bs => w8 c off b ++ wstr c (off + 1) bs

/-- `R32 off`. -/
def r32 (c : Config) (off : Nat) : List HostOp := [.read (c.base + off) 4]

/-- `RBYTES off, n`. -/
def rbytes (c : Config) (off n : Nat) : List HostOp := (List.range n).map fun i => .read (c.base + (off + i)) 1

/-- `POLL`. -/
def pollStatus : List HostOp := [.poll]

/-- The pseudo-instructions ENCODE, DECODE, HEX_ENC, HEX_DEC: `W32 0x000` with the command's word. -/
def command (c : Config) (i : Instr) : List HostOp := w32 c 0x000 (encode i)

/-- `SETIN "text"`. -/
def setIn (c : Config) (text : Bytes) : List HostOp :=
  wstr c 0x10000 text ++ w32 c 0x008 (BitVec.ofNat 32 text.length) ++ w32 c 0x00C 0

/-- `SETNULL`. -/
def setNull (c : Config) : List HostOp := w32 c 0x00C 1

end Sys2Proof.Machine
end

