-- ==== Sys2Proof/Safety.lean ====
section
/-! DEFINITION. What a safe state is, in the terms the claims use: the invariant of the block (spec 10_state.md R23, R26,
R28, R31; 60_exceptions.md R202), and which error pairs a command may record. -/

namespace Sys2Proof.Machine

/-- The (kind, cause) pairs each command may record (60_exceptions.md R202). -/
def errorPairs : Instr → List (ErrKind × ErrCause)
  | .encode =>
    [(.emptyInput, .nullInput), (.emptyInput, .zeroLen), (.encrypt, .keyLen), (.encrypt, .ivLen), (.cmd, .lenRange)]
  | .decode =>
    [(.emptyInput, .nullInput), (.emptyInput, .zeroLen), (.decrypt, .hexOdd), (.decrypt, .hexDigit),
     (.decrypt, .keyLen), (.decrypt, .ivLen), (.decrypt, .noData), (.decrypt, .blockAlign), (.cmd, .lenRange)]
  | .hexEnc => [(.cmd, .lenRange)]
  | .hexDec => [(.hex, .hexOdd), (.hex, .hexDigit), (.cmd, .lenRange)]
  | .illegal _ _ => [(.cmd, .illegalOp)]

/-- R23's conditions on STATUS: while BUSY, DONE, ERR, OUT_NULL, ERR_KIND and ERR_CAUSE are 0; DONE without ERR has
ERR_KIND and ERR_CAUSE 0; ERR has DONE and OUT_NULL 1 and both codes nonzero. -/
structure Status.Legal (st : Status) : Prop where
  busy : st.busy = true →
    st.done = false ∧ st.err = false ∧ st.outNull = false ∧ st.errKind = .none ∧ st.errCause = .none
  ok : st.done = true → st.err = false → st.errKind = .none ∧ st.errCause = .none
  failed : st.err = true → st.done = true ∧ st.outNull = true ∧ st.errKind ≠ .none ∧ st.errCause ≠ .none

/-- The invariant: the parameters are legal and KEY and IV are theirs (R7, R29, R30); the buffers are in canonical form
and inside their capacities, OUT_BUF specified only below OUT_LEN (R27, R28); SEQ equals STATUS.BUSY (R31); STATUS is
legal (R23) and LAST_OP is PEND's OPCODE once a command was accepted (R23, R170); while BUSY, OUT_LEN is 0 and no byte of
OUT_BUF is specified (R170, R236); after a failure OUT_LEN is 0, no byte of OUT_BUF is specified and the recorded pair is
one the command may record (R179, R202); an ABSENT result has OUT_LEN 0 (R178). -/
structure State.Inv (s : State) : Prop where
  cfg : s.cfg.wf
  key : s.key = s.cfg.key
  iv : s.iv = s.cfg.iv
  inWf : s.inBuf.wf
  inRange : ∀ c ∈ s.inBuf, c.1 < s.cfg.nIn
  outWf : s.outBuf.wf
  outRange : ∀ c ∈ s.outBuf, c.1 < s.outLen.toNat
  outLen : s.outLen.toNat ≤ s.cfg.nOut
  seq : s.seq = .busy ↔ s.status.busy = true
  status : s.status.Legal
  lastOp : s.status.busy = true ∨ s.status.done = true → s.status.lastOp = opcodeField s.pend
  busyOut : s.status.busy = true → s.outLen = 0 ∧ s.outBuf = []
  nullOut : s.status.outNull = true → s.outLen = 0 ∧ s.outBuf = []
  pairs : s.status.err = true → (s.status.errKind, s.status.errCause) ∈ errorPairs (decodeWord s.pend)

/-- A run goes on: the next step is a next state (it stops on no bus error and on no access outside the window). -/
def State.runsOn (s : State) : Prop := ∃ t, step s = .next t

/-! ### The end states of a command, as R178 and R179 give them -/

/-- The state R178 gives for a successful completion with result `r` (`none` for ABSENT); `draws` is the model's own. -/
def State.succeeded (r : Option Bytes) (s : State) : State :=
  { s with
    status := ⟨false, true, false, r.isNone, s.status.ovr, .none, .none, s.status.lastOp⟩
    outLen := BitVec.ofNat 32 (r.getD []).length
    outBuf := Memory.ofBytes 0 (r.getD [])
    seq := .idle
    draws := s.draws + 1 }

/-- The state R179 gives for a failed completion; `draws` is the model's own. -/
def State.failed (kind : ErrKind) (cause : ErrCause) (s : State) : State :=
  { s with
    status := ⟨false, true, true, true, s.status.ovr, kind, cause, s.status.lastOp⟩
    outLen := 0
    outBuf := []
    seq := .idle
    draws := s.draws + 1 }

/-- The cipher engine right after the initialisation of R125. -/
def State.engineSet (dir : Dir) (s : State) : State :=
  { s with dir := dir, rk := keyExpansion s.key, chain := loadBlock s.iv }

/-- The same state with another KEY, IV and cipher engine: what no bus access can tell apart (R20, R29 to R31). -/
def State.withSecrets (key iv : Bytes) (dir : Dir) (chain : Block) (rk : List Quad) (s : State) : State :=
  { s with key := key, iv := iv, dir := dir, chain := chain, rk := rk }

/-- The access of `n` bytes at window offset `off` is one the bus lets through (20_memory.md R53 to R55). -/
abbrev legalAccess (off n : Nat) : Prop :=
  if off < 0x14 then n = 4 ∧ off % 4 = 0 else off < 0x40000 ∧ (n = 1 ∨ n = 2 ∨ n = 4) ∧ off % n = 0

end Sys2Proof.Machine
end

