-- ==== Sys2Proof/Certificates/Slice0/Obligations.lean ====
section
/-! DEFINITION. The statements for the provers, from the numbered rules of spec/. `draws`, `hostOps`, `coreWait` and `reads`
are the model's own fields (log 4, 5, 6, 13). An explicit next state below says what happens to them too, but in the
statements that formalise a numbered rule, where that stays open (`draws := t.draws`). -/

open Sys2Proof Sys2Proof.Machine

/-! ### The command word -/

/-- R71 and R74: which words are which command. -/
def Obligations.DecodingFollowsTheOpcodeMap : Prop :=
  ∀ w : Word,
    (decodeWord w = .encode ↔ w = 0x00000001) ∧ (decodeWord w = .decode ↔ w = 0x00000002) ∧
    (decodeWord w = .hexEnc ↔ w = 0x00000003) ∧ (decodeWord w = .hexDec ↔ w = 0x00000004) ∧
    (w ≠ 0x00000001 → w ≠ 0x00000002 → w ≠ 0x00000003 → w ≠ 0x00000004 →
      decodeWord w = .illegal (w.extractLsb' 4 28) (w.extractLsb' 0 4))

/-- 30_encoding.md: decoding an encoded well-formed command gives it back, as a word and as the bytes of its write. -/
def Obligations.EncodedCommandsDecodeBack : Prop :=
  ∀ i : Instr, i.wf = true → decodeWord (encode i) = i ∧ decodeBytes (encodeBytes i) = .ok i

/-- 30_encoding.md R72, last sentence: each of the 2^32 words is one well-formed command, whose word it is. -/
def Obligations.DecodedWordsEncodeBack : Prop :=
  ∀ w : Word, (decodeWord w).wf = true ∧ encode (decodeWord w) = w

/-- Words written out from R71 and R72, as words, as bytes on the bus (R52) and in the opcode table's numbering. The
decoder on byte strings is the model's choice, and so is that it rejects another number of bytes by name (log 15); on
the bus a CMD write of another width gets a bus error (R53). -/
def Obligations.WrittenWordsDecode : Prop :=
  decodeWord 0x00000001 = .encode ∧ decodeWord 0x00000002 = .decode ∧ decodeWord 0x00000003 = .hexEnc ∧
  decodeWord 0x00000004 = .hexDec ∧ decodeWord 0x00000000 = .illegal 0 0 ∧ decodeWord 0x00000005 = .illegal 0 5 ∧
  decodeWord 0x00000011 = .illegal 1 1 ∧ decodeBytes [0x03, 0x00, 0x00, 0x00] = .ok .hexEnc ∧
  decodeBytes [0x00, 0x00, 0x00, 0x03] = .ok (.illegal 0x0300000 0) ∧
  decodeBytes [0x01, 0x00] = .error (.wrongLength 2) ∧ decodeTableWord 32 2 = some .decode

/-! ### The step -/

/-- R171: while SEQ = BUSY the core's step, when its turn comes, runs the command in PEND. When the turn comes is the
model's choice (log 5): after `coreWait` host events, or when the host has none left. -/
def Obligations.StepRunsThePendingCommand : Prop :=
  ∀ s : State, s.seq = .busy → s.resetAsserted = false → (s.coreWait = 0 ∨ s.hostOps = []) →
    step s = exec (decodeWord s.pend) s

/-- The command that withFetchWord places is the one the very next step runs (log 17). -/
def Obligations.PlacedCommandRunsNext : Prop :=
  ∀ (s : State) (w : Word),
    (s.withFetchWord 32 w.toNat).pend = w ∧
    step (s.withFetchWord 32 w.toNat) = exec (decodeWord w) (s.withFetchWord 32 w.toNat)

/-- 20_memory.md R61: host events take effect one at a time in bus order; with none to come and no command in flight
the block stays as it is (log 6). -/
def Obligations.HostEventsTakeTheirTurn : Prop :=
  ∀ s : State,
    (∀ op rest, s.hostOps = op :: rest → (s.seq = .idle ∨ s.resetAsserted = true ∨ s.coreWait ≠ 0) →
      step s = hostEvent op { s with hostOps := rest, coreWait := s.coreWait - 1 }) ∧
    (s.hostOps = [] → (s.seq = .idle ∨ s.resetAsserted = true) → step s = .next s)

/-- R171, R241: completion is fair. A command in flight, with no reset to come, has its completion step after at most
`coreWait` host events, or a host event stops the run first; and it then runs the accepted word on the input held at
the accept (R237). -/
def Obligations.CompletionComesWithinTheWait : Prop :=
  ∀ s : State, s.seq = .busy → s.status.busy = true → s.resetAsserted = false →
    (∀ op ∈ s.hostOps, ∀ level, op ≠ .reset level) →
    ∃ k ≤ s.coreWait,
      (∃ t, Sys2Proof.core.run k s = .next t ∧ step t = exec (decodeWord s.pend) t ∧ t.pend = s.pend ∧
        t.inLen = s.inLen ∧ t.inNull = s.inNull ∧ t.inBuf = s.inBuf) ∨
      (∃ f, Sys2Proof.core.run k s = .fault f) ∨ (∃ r, Sys2Proof.core.run k s = .refused r)

/-- R170, R171: an idle block whose one host event is a write of `w` to CMD has run the command of `w` after two steps,
on the input as it stood at the write. -/
def Obligations.CommandRunsFromItsWrite : Prop :=
  ∀ (s : State) (w : Word), s.seq = .idle → s.status.busy = false → s.resetAsserted = false →
    s.hostOps = [.write (s.cfg.base + 0x000) 4 w] →
    ∃ a, Sys2Proof.core.run 1 s = .next a ∧ Sys2Proof.core.run 2 s = exec (decodeWord w) a ∧
      a.inLen = s.inLen ∧ a.inNull = s.inNull ∧ a.inBuf = s.inBuf ∧ a.key = s.key ∧ a.iv = s.iv

/-! ### Reset -/

/-- R230: the values the spec gives for reset, for every parameter value; an unspecified buffer byte is `none`. -/
def Obligations.ResetGivesTheSpecValues : Prop :=
  (∀ c : Config, c.wf →
    statusWord (State.resetWith c).status = 0 ∧ (State.resetWith c).inLen = 0 ∧
    inCtrlWord (State.resetWith c).inNull = 0 ∧ (State.resetWith c).outLen = 0 ∧
    (State.resetWith c).key = c.key ∧ (State.resetWith c).iv = c.iv ∧ (State.resetWith c).seq = .idle ∧
    (State.resetWith c).resetAsserted = false ∧
    (∀ k < 4, (State.resetWith c).peek (0x000 + k) = some 0) ∧
    (∀ i < c.nIn, (State.resetWith c).peek (0x10000 + i) = none) ∧
    (∀ i < c.nOut, (State.resetWith c).peek (0x20000 + i) = none)) ∧
  State.reset = State.resetWith Config.default ∧
  Config.default.key = defaultKey ∧ Config.default.iv = defaultIv ∧ Config.default.nIn = 4096 ∧
  Config.default.oddHex = .reject ∧ Config.default.shortDecode = .error

/-- The invariant holds at reset, for every legal parameter value. -/
def Obligations.ResetMeetsTheInvariant : Prop :=
  State.reset.Inv ∧ ∀ c : Config, c.wf → (State.resetWith c).Inv

/-- From every state that meets the invariant (R7, R23, R26 to R31, R202), every step that answers a next state gives
one that meets it. -/
def Obligations.EveryStepKeepsTheInvariant : Prop :=
  ∀ s t : State, s.Inv → step s = .next t → t.Inv

/-- R232: a command that reset interrupts has no completion and no result, and the state after reset is R230's. That
asserting reset changes the level only, and that the state is loaded when the level falls, is the model's choice (log 9);
so are the values of PEND, DIR, CHAIN and RK in `State.resetWith`, which R230 leaves unspecified (log 3). -/
def Obligations.ResetAbandonsTheCommand : Prop :=
  ∀ s : State,
    (∀ rest, s.hostOps = .reset true :: rest → (s.seq = .idle ∨ s.coreWait ≠ 0) →
      step s = .next { s with resetAsserted := true, hostOps := rest, coreWait := s.coreWait - 1 }) ∧
    (s.resetAsserted = true → s.hostOps = [] → step s = .next s) ∧
    (∀ rest, s.resetAsserted = true → s.hostOps = .reset false :: rest →
      step s = .next { State.resetWith s.cfg with
        hostOps := rest, coreWait := s.coreWait - 1, draws := s.draws + 1, reads := s.reads })

/-- R29, R30, R231: no step changes the parameters. A step leaves KEY and IV as they are unless it is the host's event
`.reset false` with reset asserted, and that one loads them from the parameters. That this event is the one that loads
them is the model's choice (log 9). -/
def Obligations.NoStepChangesKeyOrIv : Prop :=
  ∀ s t : State, step s = .next t →
    t.cfg = s.cfg ∧
    (¬ (s.resetAsserted = true ∧ ∃ rest, s.hostOps = .reset false :: rest) → t.key = s.key ∧ t.iv = s.iv) ∧
    (∀ rest, s.resetAsserted = true → s.hostOps = .reset false :: rest → t.key = s.cfg.key ∧ t.iv = s.cfg.iv)

/-- R233: while reset is asserted an access to the window has no effect, and what a read returns is unspecified: every
byte of it is a free draw. -/
def Obligations.AccessesDuringResetHaveNoEffect : Prop :=
  ∀ (s : State) (off n : Nat) (v : Word), s.resetAsserted = true → off < 0x40000 →
    hostEvent (.write (s.cfg.base + off) n v) s = .next s ∧
    hostEvent (.read (s.cfg.base + off) n) s = .next { s with
      reads := ⟨s.cfg.base + off, n, leWord ((List.range n).map fun k => Config.freeByte s.draws (off + k))⟩ :: s.reads
      draws := s.draws + 1 }

/-! ### The bus window -/

/-- R170 and R238: a write to CMD while BUSY = 0 is accepted, whatever the word; while BUSY = 1 it is dropped and sets
OVR, and no second command is queued. -/
def Obligations.CmdWriteIsAcceptedOrDropped : Prop :=
  ∀ (s : State) (w : Word), s.resetAsserted = false →
    (s.status.busy = false →
      ∃ t, hostEvent (.write (s.cfg.base + 0x000) 4 w) s = .next t ∧ (∀ k, t.outBuf.read k = none) ∧
        t = { s with
          pend := w
          status := ⟨true, false, false, false, false, .none, .none, w.extractLsb' 0 4⟩
          outLen := 0
          outBuf := t.outBuf
          seq := .busy
          coreWait := t.coreWait
          draws := t.draws }) ∧
    (s.status.busy = true →
      hostEvent (.write (s.cfg.base + 0x000) 4 w) s = .next { s with status := { s.status with ovr := true } })

/-- R237: a write to IN_LEN, IN_CTRL or the IN_BUF window while BUSY = 1 is dropped and sets OVR, in range or in the tail,
whatever its width, and the command still sees the same input. -/
def Obligations.InputWritesWhileBusyAreDropped : Prop :=
  ∀ (s : State) (off n : Nat) (v : Word), s.resetAsserted = false → s.status.busy = true →
    ((off = 0x008 ∨ off = 0x00C) ∨ (0x10000 ≤ off ∧ off < 0x20000)) → legalAccess off n →
    ∃ t, hostEvent (.write (s.cfg.base + off) n v) s = .next t ∧
      t = { s with status := { s.status with ovr := true } } ∧ t.input = s.input

/-- R24, R25, R27, R54: while BUSY = 0 a write to IN_LEN stores its 32 bits, one to IN_CTRL its bit 0, one to the IN_BUF
window its bytes below N_IN, byte k at offset o + k (R52), and nothing else changes. -/
def Obligations.InputWritesWhileIdleAreStored : Prop :=
  ∀ (s : State) (v : Word), s.resetAsserted = false → s.status.busy = false →
    hostEvent (.write (s.cfg.base + 0x008) 4 v) s = .next { s with inLen := v } ∧
    hostEvent (.write (s.cfg.base + 0x00C) 4 v) s = .next { s with inNull := v.getLsbD 0 } ∧
    ∀ i n : Nat, i < 0x10000 → legalAccess (0x10000 + i) n →
      ∃ t, hostEvent (.write (s.cfg.base + (0x10000 + i)) n v) s = .next t ∧ t = { s with inBuf := t.inBuf } ∧
        ∀ j, t.inBuf.read j =
          if i ≤ j ∧ j < i + n ∧ j < s.cfg.nIn then some (v.extractLsb' (8 * (j - i)) 8) else s.inBuf.read j

/-- R57: a write to OUT_BUF, STATUS or OUT_LEN is ignored and does not set OVR, busy or not. -/
def Obligations.ReadOnlyWritesAreIgnored : Prop :=
  ∀ (s : State) (off n : Nat) (v : Word), s.resetAsserted = false →
    (off = 0x004 ∨ off = 0x010 ∨ (0x20000 ≤ off ∧ off < 0x30000)) → legalAccess off n →
    hostEvent (.write (s.cfg.base + off) n v) s = .next s

/-- R55: reserved offsets read as 0 and ignore writes, for any aligned access of 8, 16 or 32 bits; a misaligned access
gets a bus error. -/
def Obligations.ReservedOffsetsReadZeroIgnoreWrites : Prop :=
  ∀ (s : State) (off n : Nat) (v : Word), s.resetAsserted = false →
    ((0x00014 ≤ off ∧ off < 0x10000) ∨ (0x30000 ≤ off ∧ off < 0x40000)) → (n = 1 ∨ n = 2 ∨ n = 4) →
    (off % n = 0 →
      (∃ t, hostEvent (.read (s.cfg.base + off) n) s = .next t ∧
        t = { s with reads := ⟨s.cfg.base + off, n, 0⟩ :: s.reads, draws := t.draws }) ∧
      hostEvent (.write (s.cfg.base + off) n v) s = .next s) ∧
    (off % n ≠ 0 →
      hostEvent (.read (s.cfg.base + off) n) s = .fault .windowBusError ∧
      hostEvent (.write (s.cfg.base + off) n v) s = .fault .windowBusError)

/-- R56: offsets at or beyond a buffer's capacity read as 0, busy or not, and ignore writes. R237 says what else a write
to the IN_BUF tail does while BUSY = 1: it sets OVR. -/
def Obligations.OffsetsBeyondCapacityReadZeroIgnoreWrites : Prop :=
  ∀ (s : State) (off n : Nat) (v : Word), s.resetAsserted = false →
    ((0x10000 + s.cfg.nIn ≤ off ∧ off < 0x20000) ∨ (0x20000 + s.cfg.nOut ≤ off ∧ off < 0x30000)) →
    legalAccess off n →
    (∃ t, hostEvent (.read (s.cfg.base + off) n) s = .next t ∧
      t = { s with reads := ⟨s.cfg.base + off, n, 0⟩ :: s.reads, draws := t.draws }) ∧
    ((off < 0x20000 → s.status.busy = false) → hostEvent (.write (s.cfg.base + off) n v) s = .next s) ∧
    (off < 0x20000 → s.status.busy = true →
      hostEvent (.write (s.cfg.base + off) n v) s = .next { s with status := { s.status with ovr := true } })

/-- R53: a register access that is 32 bits wide and aligned to 4 goes through; any other gets a bus error, which is a
fault of the host and no next state. -/
def Obligations.RegisterAccessesAreAlignedWords : Prop :=
  ∀ (s : State) (off n : Nat) (v : Word), s.resetAsserted = false → off < 0x14 →
    (n = 4 ∧ off % 4 = 0 →
      (∃ t, hostEvent (.read (s.cfg.base + off) n) s = .next t) ∧
      (∃ t, hostEvent (.write (s.cfg.base + off) n v) s = .next t)) ∧
    (¬ (n = 4 ∧ off % 4 = 0) →
      hostEvent (.read (s.cfg.base + off) n) s = .fault .registerBusError ∧
      hostEvent (.write (s.cfg.base + off) n v) s = .fault .registerBusError)

/-- R54 (with R55 and D5 for the widths): elsewhere in the window an access of 8, 16 or 32 bits, naturally aligned, goes
through and any other gets a bus error; and an access outside the window is no access to the block (R51; log 8). -/
def Obligations.WindowAccessesAreNaturallyAligned : Prop :=
  ∀ (s : State) (v : Word), s.resetAsserted = false →
    (∀ off n : Nat, 0x14 ≤ off → off < 0x40000 →
      ((n = 1 ∨ n = 2 ∨ n = 4) ∧ off % n = 0 →
        (∃ t, hostEvent (.read (s.cfg.base + off) n) s = .next t) ∧
        (∃ t, hostEvent (.write (s.cfg.base + off) n v) s = .next t)) ∧
      (¬ ((n = 1 ∨ n = 2 ∨ n = 4) ∧ off % n = 0) →
        hostEvent (.read (s.cfg.base + off) n) s = .fault .windowBusError ∧
        hostEvent (.write (s.cfg.base + off) n v) s = .fault .windowBusError)) ∧
    (∀ addr n : Nat, (addr < s.cfg.base ∨ s.cfg.base + 0x40000 ≤ addr) →
      hostEvent (.read addr n) s = .refused .outsideWindow ∧
      hostEvent (.write addr n v) s = .refused .outsideWindow)

/-- R52, R58: a read gives byte k of the transfer the storage byte at offset o + k, a free draw where that byte is
unspecified (D39), and changes nothing but the model's own record of reads and draws. -/
def Obligations.ReadsReturnTheStorageBytes : Prop :=
  ∀ (s : State) (off n : Nat), s.resetAsserted = false → legalAccess off n →
    ∃ x : Word,
      hostEvent (.read (s.cfg.base + off) n) s =
        .next { s with reads := ⟨s.cfg.base + off, n, x⟩ :: s.reads, draws := s.draws + 1 } ∧
      x.toNat < 2 ^ (8 * n) ∧
      ∀ k < n, x.extractLsb' (8 * k) 8 = (s.peek (off + k)).getD (Config.freeByte s.draws (off + k))

/-- R21, R22, R25, R51, R52: what the window holds: CMD reads as 0, the registers little-endian, IN_CTRL with its
reserved bits 0, the buffers byte by byte. -/
def Obligations.WindowHoldsRegistersAndBuffers : Prop :=
  ∀ s : State, s.cfg.wf →
    (∀ k < 4,
      s.peek (0x000 + k) = some 0 ∧
      s.peek (0x004 + k) = some ((statusWord s.status).extractLsb' (8 * k) 8) ∧
      s.peek (0x008 + k) = some (s.inLen.extractLsb' (8 * k) 8) ∧
      s.peek (0x00C + k) = some (if s.inNull = true ∧ k = 0 then 1 else 0) ∧
      s.peek (0x010 + k) = some (s.outLen.extractLsb' (8 * k) 8)) ∧
    (∀ i < s.cfg.nIn, s.peek (0x10000 + i) = s.inBuf.read i) ∧
    (∀ i < s.cfg.nOut, s.peek (0x20000 + i) = s.outBuf.read i)

/-- R23's layout of STATUS, in the sum form of 95_test_vectors.md, with every reserved bit 0; and the codes of R200 and
R201 that ERR_KIND and ERR_CAUSE hold. -/
def Obligations.StatusWordHasItsLayout : Prop :=
  (∀ st : Status,
    (statusWord st).toNat =
      st.busy.toNat + 2 * st.done.toNat + 4 * st.err.toNat + 8 * st.outNull.toNat + 16 * st.ovr.toNat +
      2 ^ 8 * (errKindCode st.errKind).toNat + 2 ^ 16 * (errCauseCode st.errCause).toNat + 2 ^ 24 * st.lastOp.toNat) ∧
  (errKindCode .none = 0 ∧ errKindCode .emptyInput = 1 ∧ errKindCode .encrypt = 2 ∧ errKindCode .decrypt = 3 ∧
    errKindCode .hex = 4 ∧ errKindCode .cmd = 5) ∧
  (errCauseCode .none = 0 ∧ errCauseCode .nullInput = 1 ∧ errCauseCode .zeroLen = 2 ∧ errCauseCode .keyLen = 3 ∧
    errCauseCode .ivLen = 4 ∧ errCauseCode .blockAlign = 5 ∧ errCauseCode .hexDigit = 6 ∧ errCauseCode .hexOdd = 7 ∧
    errCauseCode .noData = 8 ∧ errCauseCode .illegalOp = 9 ∧ errCauseCode .lenRange = 10)

/-- R20, R29, R30, R31: no bus access reads or writes KEY, IV or the cipher engine: with other secrets every access that
gets an answer gets the same one and leaves the secrets as they are. -/
def Obligations.BusAccessesDoNotTouchTheSecrets : Prop :=
  ∀ (op : HostOp) (s t : State) (key iv : Bytes) (dir : Dir) (chain : Block) (rk : List Quad),
    (∀ level, op ≠ .reset level) → hostEvent op s = .next t →
    hostEvent op (s.withSecrets key iv dir chain rk) = .next (t.withSecrets key iv dir chain rk) ∧
    t = t.withSecrets s.key s.iv s.dir s.chain s.rk

/-- R75: a turn of POLL reads STATUS and goes on exactly while BUSY = 1. -/
def Obligations.PollGoesOnWhileBusy : Prop :=
  ∀ s : State, s.resetAsserted = false →
    hostEvent .poll s = .next { s with
      reads := ⟨s.cfg.base + 4, 4, statusWord s.status⟩ :: s.reads
      draws := s.draws + 1
      hostOps := if s.status.busy then .poll :: s.hostOps else s.hostOps }

/-! ### The padding unit and the hex unit -/

/-- R100, R101, R102: the pad length and the padded string. -/
def Obligations.PadIsOneToSixteenSpaces : Prop :=
  (∀ l : Nat, padLen l = 16 - l % 16 ∧ 1 ≤ padLen l ∧ padLen l ≤ 16 ∧ (padLen l = 16 ↔ l % 16 = 0)) ∧
  ∀ t : Bytes,
    pad t = t ++ List.replicate (padLen t.length) 0x20 ∧ (pad t).length = 16 * (t.length / 16 + 1) ∧
    (pad t).length % 16 = 0 ∧ 16 ≤ (pad t).length ∧ 1 ≤ (pad t).length - t.length ∧
    (pad t).length - t.length ≤ 16 ∧ (pad t).take t.length = t ∧
    ∀ nIn, t.length ≤ nIn → (pad t).length ≤ 16 * (nIn / 16 + 1) ∧ 16 * (nIn / 16 + 1) ≤ nIn + 16

/-- R150: the lowercase digits. -/
def Obligations.HexDigitsAreLowercase : Prop :=
  ∀ n : BitVec 4, (hexDigit n).toNat = if n.toNat ≤ 9 then 0x30 + n.toNat else 0x61 + (n.toNat - 10)

/-- R151: the exact set of accepted characters and their values. -/
def Obligations.HexValuesAreOfBothCases : Prop :=
  ∀ c : Byte, (hexVal c).map BitVec.toNat =
    if 0x30 ≤ c.toNat ∧ c.toNat ≤ 0x39 then some (c.toNat - 0x30)
    else if 0x41 ≤ c.toNat ∧ c.toNat ≤ 0x46 then some (c.toNat - 0x37)
    else if 0x61 ≤ c.toNat ∧ c.toNat ≤ 0x66 then some (c.toNat - 0x57)
    else none

/-- R152: two characters a byte, high nibble first, in order; ABSENT to ABSENT and [] to []. -/
def Obligations.BytesToHexWritesTwoDigitsAByte : Prop :=
  bytesToHexOpt none = none ∧ bytesToHexOpt (some []) = some [] ∧
  ∀ b : Bytes, bytesToHexOpt (some b) = some (bytesToHex b) ∧ (bytesToHex b).length = 2 * b.length ∧
    ∀ i (h : i < b.length),
      (bytesToHex b)[2 * i]? = some (hexDigit (b[i].extractLsb' 4 4)) ∧
      (bytesToHex b)[2 * i + 1]? = some (hexDigit (b[i].extractLsb' 0 4))

/-- R153: hexToBytes with its checks in order, for both values of ODD_HEX. -/
def Obligations.HexToBytesChecksInOrder : Prop :=
  ∀ oddHex : OddHex,
    hexToBytes oddHex none = .absent ∧
    ∀ s : Bytes,
      (s.length < 2 → hexToBytes oddHex (some s) = .absent) ∧
      (2 ≤ s.length → s.length % 2 = 1 → oddHex = .reject → hexToBytes oddHex (some s) = .failOdd) ∧
      (2 ≤ s.length → (s.length % 2 = 0 ∨ oddHex = .truncate) →
        ((∃ i, i < s.length / 2 ∧ (hexVal (s.getD (2 * i) 0) = none ∨ hexVal (s.getD (2 * i + 1) 0) = none)) →
          hexToBytes oddHex (some s) = .failDigit) ∧
        ((∀ i, i < s.length / 2 → hexVal (s.getD (2 * i) 0) ≠ none ∧ hexVal (s.getD (2 * i + 1) 0) ≠ none) →
          ∃ b, hexToBytes oddHex (some s) = .ok b ∧ b.length = s.length / 2 ∧
            ∀ i, i < s.length / 2 →
              (b.getD i 0).toNat =
                16 * ((hexVal (s.getD (2 * i) 0)).getD 0).toNat + ((hexVal (s.getD (2 * i + 1) 0)).getD 0).toNat))

/-- R154: the hex round trips; the one through the empty string ends as ABSENT. -/
def Obligations.HexRoundTrips : Prop :=
  ∀ oddHex : OddHex,
    (∀ b : Bytes, 1 ≤ b.length → hexToBytes oddHex (bytesToHexOpt (some b)) = .ok b) ∧
    hexToBytes oddHex (bytesToHexOpt none) = .absent ∧
    hexToBytes oddHex (bytesToHexOpt (some [])) = .absent ∧
    (∀ s : Bytes, 2 ≤ s.length → s.length % 2 = 0 → (∀ c ∈ s, hexVal c ≠ none) →
      ∃ b, hexToBytes oddHex (some s) = .ok b ∧
        bytesToHex b = s.map fun c => if 0x41 ≤ c.toNat ∧ c.toNat ≤ 0x46 then c + 0x20 else c)

/-! ### The cipher core -/

/-- R114: INV_SBOX undoes SBOX, SBOX is a permutation, and the rule's checks. -/
def Obligations.InvSboxUndoesSbox : Prop :=
  (∀ a : Byte, invSbox (sbox a) = a) ∧ (∀ a : Byte, sbox (invSbox a) = a) ∧
  invSbox 0x63 = 0x00 ∧ invSbox 0xed = 0x53 ∧ invSbox 0x00 = 0x52

/-- R117: ShiftRows and InvShiftRows by row and column, on the block's bytes (R115: entry r, c is byte r + 4*c). -/
def Obligations.ShiftRowsMovesRowRByR : Prop :=
  ∀ (s : Block) (r c : Nat), r < 4 → c < 4 →
    (storeBlock (shiftRows s))[r + 4 * c]? = (storeBlock s)[r + 4 * ((c + r) % 4)]? ∧
    (storeBlock (invShiftRows s))[r + 4 * c]? = (storeBlock s)[r + 4 * ((c + 4 - r) % 4)]? ∧
    (storeBlock (shiftRows s))[4 * c]? = (storeBlock s)[4 * c]?

/-- R118: InvMixColumns undoes MixColumns, and the rule's example column. -/
def Obligations.InvMixColumnsUndoesMixColumns : Prop :=
  (∀ s : Block, invMixColumns (mixColumns s) = s) ∧
  mixColumn ⟨0xdb, 0x13, 0x53, 0x45⟩ = ⟨0x8e, 0x4d, 0xa1, 0xbc⟩

/-- R120: the schedule's length, its first words, its recurrence, and the rule's example words of the default KEY. -/
def Obligations.KeyExpansionFollowsItsRecurrence : Prop :=
  (∀ key : Bytes, keyLenValid key = true →
    (keyExpansion key).length = 4 * (key.length / 4 + 6 + 1) ∧
    (∀ i, i < key.length / 4 →
      scheduleWord (keyExpansion key) i =
        ⟨key.getD (4 * i) 0, key.getD (4 * i + 1) 0, key.getD (4 * i + 2) 0, key.getD (4 * i + 3) 0⟩) ∧
    ∀ i, key.length / 4 ≤ i → i < 4 * (key.length / 4 + 6 + 1) →
      scheduleWord (keyExpansion key) i =
        quadXor (scheduleWord (keyExpansion key) (i - key.length / 4))
          (if i % (key.length / 4) = 0 then
            quadXor (subWord (rotWord (scheduleWord (keyExpansion key) (i - 1)))) ⟨rcon (i / (key.length / 4)), 0, 0, 0⟩
          else if key.length / 4 = 8 ∧ i % 8 = 4 then subWord (scheduleWord (keyExpansion key) (i - 1))
          else scheduleWord (keyExpansion key) (i - 1))) ∧
  scheduleWord (keyExpansion defaultKey) 0 = ⟨0x38, 0x39, 0x48, 0x34⟩ ∧
  scheduleWord (keyExpansion defaultKey) 7 = ⟨0x34, 0x4c, 0x4b, 0x4c⟩ ∧
  scheduleWord (keyExpansion defaultKey) 8 = ⟨0x10, 0x8a, 0x61, 0x2c⟩ ∧
  scheduleWord (keyExpansion defaultKey) 9 = ⟨0x29, 0xc3, 0x50, 0x1e⟩ ∧
  scheduleWord (keyExpansion defaultKey) 59 = ⟨0x7d, 0xb0, 0x53, 0xa5⟩

/-- R122, last sentence: InvCipher undoes Cipher, for every block and every schedule, so for every valid KEY. -/
def Obligations.InvCipherUndoesCipher : Prop :=
  ∀ (w : List Quad) (nr : Nat) (p : Block), invCipher w nr (cipher w nr p) = p

/-- R123 and R124 block by block: the length, and block j from block j and the block before it, the IV before the first. -/
def Obligations.CbcChainsBlockByBlock : Prop :=
  ∀ key iv p : Bytes, p.length % 16 = 0 →
    (cbcEnc key iv p).length = p.length ∧ (cbcDec key iv p).length = p.length ∧
    ∀ j, j < p.length / 16 →
      loadBlock ((cbcEnc key iv p).drop (16 * j)) =
        cipher (keyExpansion key) (keyRounds key)
          (blockXor (loadBlock (p.drop (16 * j)))
            (if j = 0 then loadBlock iv else loadBlock ((cbcEnc key iv p).drop (16 * (j - 1))))) ∧
      loadBlock ((cbcDec key iv p).drop (16 * j)) =
        blockXor (invCipher (keyExpansion key) (keyRounds key) (loadBlock (p.drop (16 * j))))
          (if j = 0 then loadBlock iv else loadBlock (p.drop (16 * (j - 1))))

/-- R130: CBC keeps the length of every P of whole blocks, and CBC_Dec undoes CBC_Enc for every valid KEY and 16-byte
IV. -/
def Obligations.CbcDecryptionUndoesEncryption : Prop :=
  ∀ key iv p : Bytes, p.length % 16 = 0 →
    (cbcEnc key iv p).length = p.length ∧ (cbcDec key iv p).length = p.length ∧
    ((key.length = 16 ∨ key.length = 24 ∨ key.length = 32) → iv.length = 16 → cbcDec key iv (cbcEnc key iv p) = p)

/-- The known answers V-AES-1 to V-AES-3 of 95_test_vectors.md, the third of them R121's example. -/
def Obligations.CipherGivesTheKnownAnswers : Prop :=
  let pt : Bytes := [0x00, 0x11, 0x22, 0x33, 0x44, 0x55, 0x66, 0x77, 0x88, 0x99, 0xaa, 0xbb, 0xcc, 0xdd, 0xee, 0xff]
  let key : Nat → Bytes := fun n => (List.range n).map (BitVec.ofNat 8)
  let run : Nat → Bytes := fun n => storeBlock (cipher (keyExpansion (key n)) (keyRounds (key n)) (loadBlock pt))
  run 16 = [0x69, 0xc4, 0xe0, 0xd8, 0x6a, 0x7b, 0x04, 0x30, 0xd8, 0xcd, 0xb7, 0x80, 0x70, 0xb4, 0xc5, 0x5a] ∧
  run 24 = [0xdd, 0xa9, 0x7c, 0xa4, 0x86, 0x4c, 0xdf, 0xe0, 0x6e, 0xaf, 0x70, 0xa0, 0xec, 0x0d, 0x71, 0x91] ∧
  run 32 = [0x8e, 0xa2, 0xb7, 0xca, 0x51, 0x67, 0x45, 0xbf, 0xea, 0xfc, 0x49, 0x90, 0x4b, 0x49, 0x60, 0x89]

/-! ### The commands -/

/-- R173, success: ENCODE of a present, nonempty input within capacity, with a valid KEY and IV, completes with the
hex of the ciphertext of the padded input; OUT_LEN is 32*((|input| div 16) + 1). -/
def Obligations.EncodeCompletes : Prop :=
  ∀ (s : State) (t : Bytes), s.input = some t → t ≠ [] → t.length ≤ s.cfg.nIn → s.cfg.wf →
    (s.key.length = 16 ∨ s.key.length = 24 ∨ s.key.length = 32) → s.iv.length = 16 →
    exec .encode s = .next { s with
      status := ⟨false, true, false, false, s.status.ovr, .none, .none, s.status.lastOp⟩
      outLen := BitVec.ofNat 32 (32 * (t.length / 16 + 1))
      outBuf := Memory.ofBytes 0 (bytesToHex (cbcEnc s.key s.iv (pad t)))
      seq := .idle
      dir := .enc
      rk := keyExpansion s.key
      chain := loadBlock ((cbcEnc s.key s.iv (pad t)).drop (16 * (t.length / 16)))
      draws := s.draws + 1 }

/-- R173, the errors of ENCODE in their order (R203); the length check before them is LengthOutOfRangeFails. -/
def Obligations.EncodeErrorsComeInOrder : Prop :=
  ∀ s : State,
    (s.inNull = true → exec .encode s = .next (s.failed .emptyInput .nullInput)) ∧
    (s.inNull = false → s.inLen = 0 → exec .encode s = .next (s.failed .emptyInput .zeroLen)) ∧
    (∀ t, s.input = some t → t ≠ [] → t.length ≤ s.cfg.nIn →
      (¬ (s.key.length = 16 ∨ s.key.length = 24 ∨ s.key.length = 32) →
        exec .encode s = .next (s.failed .encrypt .keyLen)) ∧
      ((s.key.length = 16 ∨ s.key.length = 24 ∨ s.key.length = 32) → s.iv.length ≠ 16 →
        exec .encode s = .next (s.failed .encrypt .ivLen)))

/-- R174, success: DECODE of hex for whole blocks, with a valid KEY and IV, completes with their decryption, padding left
in place; and a 1-character input with SHORT_DECODE = EMPTY completes with the present, empty string. -/
def Obligations.DecodeCompletes : Prop :=
  ∀ (s : State) (t : Bytes), s.input = some t → t.length ≤ s.cfg.nIn → s.cfg.wf →
    (s.key.length = 16 ∨ s.key.length = 24 ∨ s.key.length = 32) → s.iv.length = 16 →
    (∀ c, hexToBytes s.cfg.oddHex (some t) = .ok c → c.length % 16 = 0 →
      exec .decode s = .next { s with
        status := ⟨false, true, false, false, s.status.ovr, .none, .none, s.status.lastOp⟩
        outLen := BitVec.ofNat 32 c.length
        outBuf := Memory.ofBytes 0 (cbcDec s.key s.iv c)
        seq := .idle
        dir := .dec
        rk := keyExpansion s.key
        chain := loadBlock (c.drop (c.length - 16))
        draws := s.draws + 1 }) ∧
    (t.length = 1 → s.cfg.shortDecode = .empty →
      exec .decode s = .next ((s.engineSet .dec).succeeded (some [])))

/-- R174, the errors of DECODE in their order (R203); the length check before them is LengthOutOfRangeFails. -/
def Obligations.DecodeErrorsComeInOrder : Prop :=
  ∀ s : State,
    (s.inNull = true → exec .decode s = .next (s.failed .emptyInput .nullInput)) ∧
    (s.inNull = false → s.inLen = 0 → exec .decode s = .next (s.failed .emptyInput .zeroLen)) ∧
    (∀ t, s.input = some t → t ≠ [] → t.length ≤ s.cfg.nIn →
      (hexToBytes s.cfg.oddHex (some t) = .failOdd → exec .decode s = .next (s.failed .decrypt .hexOdd)) ∧
      (hexToBytes s.cfg.oddHex (some t) = .failDigit → exec .decode s = .next (s.failed .decrypt .hexDigit)) ∧
      (hexToBytes s.cfg.oddHex (some t) ≠ .failOdd → hexToBytes s.cfg.oddHex (some t) ≠ .failDigit →
        (¬ (s.key.length = 16 ∨ s.key.length = 24 ∨ s.key.length = 32) →
          exec .decode s = .next (s.failed .decrypt .keyLen)) ∧
        ((s.key.length = 16 ∨ s.key.length = 24 ∨ s.key.length = 32) → s.iv.length ≠ 16 →
          exec .decode s = .next (s.failed .decrypt .ivLen)) ∧
        ((s.key.length = 16 ∨ s.key.length = 24 ∨ s.key.length = 32) → s.iv.length = 16 →
          (t.length = 1 → s.cfg.shortDecode = .error →
            exec .decode s = .next ((s.engineSet .dec).failed .decrypt .noData)) ∧
          (∀ c, hexToBytes s.cfg.oddHex (some t) = .ok c → c.length % 16 ≠ 0 →
            exec .decode s = .next ((s.engineSet .dec).failed .decrypt .blockAlign)))))

/-- R175: HEX_ENC completes with the hex of the input, present or ABSENT; its only error is LEN_RANGE. -/
def Obligations.HexEncCompletes : Prop :=
  decodeWord 0x00000003 = .hexEnc ∧ ∀ s : State,
    (∀ text, s.input = some text → text.length ≤ s.cfg.nIn → s.cfg.wf →
      ∃ t, exec .hexEnc s = .next t ∧
        t = { s with
          status := ⟨false, true, false, false, s.status.ovr, .none, .none, s.status.lastOp⟩
          outLen := t.outLen
          outBuf := t.outBuf
          seq := .idle
          draws := t.draws } ∧
        t.outLen.toNat = 2 * text.length ∧ ∀ i < 2 * text.length, t.outBuf.read i = (bytesToHex text)[i]?) ∧
    (s.inNull = true →
      ∃ t, exec .hexEnc s = .next t ∧
        t = { s with
          status := ⟨false, true, false, true, s.status.ovr, .none, .none, s.status.lastOp⟩
          outLen := 0
          outBuf := t.outBuf
          seq := .idle
          draws := t.draws }) ∧
    (s.inNull = false → s.cfg.nIn < s.inLen.toNat →
      ∃ t, exec .hexEnc s = .next t ∧ t = { s.failed .cmd .lenRange with outBuf := t.outBuf, draws := t.draws })

/-- R176: HEX_DEC completes with the bytes of the input, or ABSENT for an ABSENT input or one of fewer than 2
characters; its errors are HEX_ODD, HEX_DIGIT and LEN_RANGE. -/
def Obligations.HexDecCompletes : Prop :=
  decodeWord 0x00000004 = .hexDec ∧ ∀ s : State,
    (∀ text, s.input = some text → text.length ≤ s.cfg.nIn → s.cfg.wf →
      (∀ r, hexToBytes s.cfg.oddHex (some text) = .ok r →
        ∃ t, exec .hexDec s = .next t ∧
          t = { s with
            status := ⟨false, true, false, false, s.status.ovr, .none, .none, s.status.lastOp⟩
            outLen := t.outLen
            outBuf := t.outBuf
            seq := .idle
            draws := t.draws } ∧
          t.outLen.toNat = r.length ∧ ∀ i < r.length, t.outBuf.read i = r[i]?) ∧
      (text.length < 2 →
        ∃ t, exec .hexDec s = .next t ∧ t = { s.succeeded none with outBuf := t.outBuf, draws := t.draws }) ∧
      (hexToBytes s.cfg.oddHex (some text) = .failOdd →
        ∃ t, exec .hexDec s = .next t ∧ t = { s.failed .hex .hexOdd with outBuf := t.outBuf, draws := t.draws }) ∧
      (hexToBytes s.cfg.oddHex (some text) = .failDigit →
        ∃ t, exec .hexDec s = .next t ∧ t = { s.failed .hex .hexDigit with outBuf := t.outBuf, draws := t.draws })) ∧
    (s.inNull = true →
      ∃ t, exec .hexDec s = .next t ∧ t = { s.succeeded none with outBuf := t.outBuf, draws := t.draws }) ∧
    (s.inNull = false → s.cfg.nIn < s.inLen.toNat →
      ∃ t, exec .hexDec s = .next t ∧ t = { s.failed .cmd .lenRange with outBuf := t.outBuf, draws := t.draws })

/-- R177: an illegal word completes with the error CMD/ILLEGAL_OP, whatever the input, and the word 0x00000000 gives
STATUS = 0x0009050E. -/
def Obligations.IllegalWordCompletesWithItsError : Prop :=
  (∀ (s : State) (rsvd : BitVec 28) (opcode : BitVec 4),
    ∃ t, exec (.illegal rsvd opcode) s = .next t ∧
      t = { s with
        status := ⟨false, true, true, true, s.status.ovr, .cmd, .illegalOp, s.status.lastOp⟩
        outLen := 0
        outBuf := t.outBuf
        seq := .idle
        draws := t.draws }) ∧
  (errKindCode .cmd = 5 ∧ errCauseCode .illegalOp = 9) ∧
  (∀ s : State, ∀ w : Word, w ≠ 0x00000001 → w ≠ 0x00000002 → w ≠ 0x00000003 → w ≠ 0x00000004 →
    ∃ t, step (s.withFetchWord 32 w.toNat) = .next t ∧ t.status.errKind = .cmd ∧ t.status.errCause = .illegalOp ∧
      t.status.lastOp = w.extractLsb' 0 4) ∧
  (∀ s : State, ∃ t, step (s.withFetchWord 32 0) = .next t ∧ statusWord t.status = 0x0009050E)

/-- R172: the length check of the four commands, which reads IN_LEN only when IN_NULL = 0. -/
def Obligations.LengthOutOfRangeFails : Prop :=
  (∀ (s : State) (i : Instr), (i = .encode ∨ i = .decode ∨ i = .hexEnc ∨ i = .hexDec) → s.inNull = false →
    s.cfg.nIn < s.inLen.toNat → exec i s = .next (s.failed .cmd .lenRange)) ∧
  (∀ (s t : State) (i : Instr) (v : Word), s.inNull = true → exec i s = .next t →
    exec i { s with inLen := v } = .next { t with inLen := v })

/-- R178, R179: every command ends, in one step, in a completion: BUSY 0, DONE 1, SEQ idle, OVR and LAST_OP kept; a
success has no error code, a failure has both, OUT_NULL 1 and OUT_LEN 0; and no byte of OUT_BUF is specified at or beyond
OUT_LEN (log 10). -/
def Obligations.EveryCommandEndsInACompletion : Prop :=
  ∀ (i : Instr) (s : State), ∃ t, exec i s = .next t ∧
    t.seq = .idle ∧ t.status.busy = false ∧ t.status.done = true ∧
    t.status.ovr = s.status.ovr ∧ t.status.lastOp = s.status.lastOp ∧
    (t.status.err = false → t.status.errKind = .none ∧ t.status.errCause = .none) ∧
    (t.status.err = true → t.status.errKind ≠ .none ∧ t.status.errCause ≠ .none ∧ t.status.outNull = true) ∧
    (t.status.outNull = true → t.outLen = 0) ∧
    (s.cfg.wf → t.outLen.toNat ≤ t.cfg.nOut ∧ ∀ k, t.outLen.toNat ≤ k → t.outBuf.read k = none)

/-- R171, the frame of every command: it writes only the cipher engine, STATUS, OUT_LEN, OUT_BUF and SEQ; every byte of
the window outside STATUS, OUT_LEN and OUT_BUF reads as before. That HEX_ENC, HEX_DEC and the illegal word leave the
cipher engine alone is read from R175 to R177, which do not write it (log 11). -/
def Obligations.CommandsLeaveTheRestUnchanged : Prop :=
  ∀ (i : Instr) (s t : State), exec i s = .next t →
    t = { s with
      status := t.status, outLen := t.outLen, outBuf := t.outBuf, seq := t.seq, dir := t.dir, chain := t.chain
      rk := t.rk, draws := s.draws + 1 } ∧
    (∀ off, (off < 0x4 ∨ (0x8 ≤ off ∧ off < 0x10) ∨ (0x14 ≤ off ∧ off < 0x20000) ∨ 0x20000 + s.cfg.nOut ≤ off) →
      t.peek off = s.peek off) ∧
    (i ≠ .encode → i ≠ .decode → t.dir = s.dir ∧ t.chain = s.chain ∧ t.rk = s.rk)

/-- R28: the bytes a completion stores are those of the result, from offset 0x20000 on, and every byte of OUT_BUF beyond
them is unspecified. -/
def Obligations.OutBufHoldsTheResult : Prop :=
  ∀ (s : State) (r : Bytes) (i : Nat), s.cfg.wf → i < s.cfg.nOut →
    State.peek { s with outBuf := Memory.ofBytes 0 r } (0x20000 + i) = r[i]?

/-- R202: a command records only the pairs the rule lists for it, and ENCRYPT/BLOCK_ALIGN is never recorded. -/
def Obligations.OnlyTheListedErrorPairsOccur : Prop :=
  ∀ (i : Instr) (s t : State), exec i s = .next t → t.status.err = true →
    (t.status.errKind, t.status.errCause) ∈ errorPairs i ∧
    (t.status.errKind, t.status.errCause) ≠ (ErrKind.encrypt, ErrCause.blockAlign)

/-- R175 to R177: HEX_ENC, HEX_DEC and the illegal word do not use KEY, IV or the cipher engine. -/
def Obligations.HexCommandsIgnoreTheSecrets : Prop :=
  ∀ (i : Instr) (s t : State) (key iv : Bytes) (dir : Dir) (chain : Block) (rk : List Quad),
    i ≠ .encode → i ≠ .decode → exec i s = .next t →
    exec i (s.withSecrets key iv dir chain rk) = .next (t.withSecrets key iv dir chain rk)

/-- R125: no value of the cipher engine carries over from one command to the next: whatever DIR, CHAIN and RK were
before, the command ends with the same STATUS, OUT_LEN and OUT_BUF. -/
def Obligations.NoEngineStateCarriesOver : Prop :=
  ∀ (i : Instr) (s t : State) (dir : Dir) (chain : Block) (rk : List Quad), exec i s = .next t →
    ∃ u, exec i (s.withSecrets s.key s.iv dir chain rk) = .next u ∧
      u.status = t.status ∧ u.outLen = t.outLen ∧ u.outBuf = t.outBuf

/-- 95_test_vectors.md S1 and S2, R103: DECODE of what ENCODE left in OUT_BUF gives the padded text back, its padding in
place. -/
def Obligations.DecodeUndoesEncode : Prop :=
  ∀ (s u t : State) (text : Bytes),
    s.cfg.wf → s.input = some text → text ≠ [] → text.length ≤ s.cfg.nIn →
    (s.key.length = 16 ∨ s.key.length = 24 ∨ s.key.length = 32) → s.iv.length = 16 →
    exec .encode s = .next t →
    u.cfg.wf → u.key = s.key → u.iv = s.iv → u.inNull = false → u.inLen = t.outLen →
    u.inLen.toNat ≤ u.cfg.nIn → (∀ i < t.outLen.toNat, u.inBuf.read i = t.outBuf.read i) →
    ∃ v, exec .decode u = .next v ∧ v.status.err = false ∧ v.status.outNull = false ∧
      v.outLen.toNat = (pad text).length ∧ ∀ i < (pad text).length, v.outBuf.read i = (pad text)[i]?
end

