-- ==== Sys2Proof/Laws/Aes.lean ====
section
/-! SUPPORT. The laws of the cipher core that its larger properties rest on: XOR on 4-byte strings and blocks, gmul is
linear in its second argument, `ginv` is the inverse and the S-box table is R113's formula, and byte strings of whole
blocks are lists of blocks. -/

namespace Sys2Proof.Machine

theorem quadXor_cancel (p q : Quad) : quadXor (quadXor p q) q = p := by
  simp [quadXor]

theorem blockXor_cancel (s t : Block) : blockXor (blockXor s t) t = s := by
  simp [blockXor, quadXor_cancel]

theorem addRoundKey_cancel (w : List Quad) (s : Block) (i : Nat) : addRoundKey w (addRoundKey w s i) i = s :=
  blockXor_cancel s (roundKey w i)

theorem invShiftRows_shiftRows (s : Block) : invShiftRows (shiftRows s) = s := rfl

theorem gmul_fold_xor (a x y u v : Byte) (l : List Nat) :
    l.foldl (fun acc i => if (x ^^^ y).getLsbD i then acc ^^^ xtime^[i] a else acc) (u ^^^ v) =
      l.foldl (fun acc i => if x.getLsbD i then acc ^^^ xtime^[i] a else acc) u ^^^
        l.foldl (fun acc i => if y.getLsbD i then acc ^^^ xtime^[i] a else acc) v := by
  induction l generalizing u v with
  | nil => rfl
  | cons i l ih =>
    simp only [List.foldl_cons]
    rw [← ih]
    congr 1
    rw [BitVec.getLsbD_xor]
    generalize xtime^[i] a = t
    cases x.getLsbD i <;> cases y.getLsbD i
    · rfl
    · show u ^^^ v ^^^ t = u ^^^ (v ^^^ t)
      ac_rfl
    · show u ^^^ v ^^^ t = u ^^^ t ^^^ v
      ac_rfl
    · show u ^^^ v = u ^^^ t ^^^ (v ^^^ t)
      rw [show u ^^^ t ^^^ (v ^^^ t) = u ^^^ v ^^^ (t ^^^ t) by ac_rfl, BitVec.xor_self, BitVec.xor_zero]

/-- gmul is linear in its second argument (R112). -/
theorem gmul_xor (a x y : Byte) : gmul a (x ^^^ y) = gmul a x ^^^ gmul a y := by
  simpa [gmul] using gmul_fold_xor a x y 0 0 (List.range 8)

/-- `ginv` is the multiplicative inverse of every nonzero byte (R112). -/
theorem gmul_ginv : ∀ a : Byte, a ≠ 0 → gmul a (ginv a) = 1 := by decide +kernel

/-- R113's table is R113's formula. -/
theorem sbox_eq_formula : ∀ a : Byte, sbox a = sboxFormula a := by decide +kernel

/-! ### Blocks and byte strings -/

theorem storeBlock_length (s : Block) : (storeBlock s).length = 16 := rfl

theorem loadBlock_storeBlock_append (s : Block) (b : Bytes) : loadBlock (storeBlock s ++ b) = s := rfl

theorem storeBlock_loadBlock {b : Bytes} (h : 16 ≤ b.length) : storeBlock (loadBlock b) = b.take 16 := by
  match b, h with
  | _ :: _ :: _ :: _ :: _ :: _ :: _ :: _ :: _ :: _ :: _ :: _ :: _ :: _ :: _ :: _ :: _, _ => rfl

theorem ofBlocks_nil : ofBlocks [] = [] := rfl

theorem ofBlocks_cons (s : Block) (bs : List Block) : ofBlocks (s :: bs) = storeBlock s ++ ofBlocks bs := rfl

theorem ofBlocks_length (bs : List Block) : (ofBlocks bs).length = 16 * bs.length := by
  induction bs with
  | nil => rfl
  | cons s bs ih => rw [ofBlocks_cons, List.length_append, storeBlock_length, ih, List.length_cons]; omega

theorem takeBlocks_length (n : Nat) (b : Bytes) : (takeBlocks n b).length = n := by
  induction n generalizing b with
  | zero => rfl
  | succ n ih => simp [takeBlocks, ih]

theorem toBlocks_length (b : Bytes) : (toBlocks b).length = b.length / 16 := takeBlocks_length _ _

theorem takeBlocks_ofBlocks (bs : List Block) : takeBlocks bs.length (ofBlocks bs) = bs := by
  induction bs with
  | nil => rfl
  | cons s bs ih =>
    rw [List.length_cons, takeBlocks, ofBlocks_cons, loadBlock_storeBlock_append,
      show (storeBlock s ++ ofBlocks bs).drop 16 = ofBlocks bs from rfl, ih]

/-- The blocks of the string of a list of blocks are that list. -/
theorem toBlocks_ofBlocks (bs : List Block) : toBlocks (ofBlocks bs) = bs := by
  rw [toBlocks, ofBlocks_length, Nat.mul_div_cancel_left _ (by decide)]
  exact takeBlocks_ofBlocks bs

theorem ofBlocks_takeBlocks (n : Nat) (b : Bytes) (h : 16 * n ≤ b.length) :
    ofBlocks (takeBlocks n b) = b.take (16 * n) := by
  induction n generalizing b with
  | zero => simp [takeBlocks, ofBlocks_nil]
  | succ n ih =>
    rw [takeBlocks, ofBlocks_cons, storeBlock_loadBlock (by omega), ih _ (by simp; omega),
      show 16 * (n + 1) = 16 + 16 * n by omega, List.take_add]

/-- A string of whole blocks is the string of its blocks. -/
theorem ofBlocks_toBlocks {b : Bytes} (h : b.length % 16 = 0) : ofBlocks (toBlocks b) = b := by
  rw [toBlocks, ofBlocks_takeBlocks _ _ (by omega), List.take_of_length_le (by omega)]

theorem takeBlocks_getElem? (n : Nat) (b : Bytes) (j : Nat) (h : j < n) :
    (takeBlocks n b)[j]? = some (loadBlock (b.drop (16 * j))) := by
  induction n generalizing b j with
  | zero => omega
  | succ n ih =>
    cases j with
    | zero => rfl
    | succ j =>
      rw [takeBlocks, List.getElem?_cons_succ, ih _ _ (by omega), List.drop_drop]
      congr 3
      omega

theorem toBlocks_getElem? (b : Bytes) (j : Nat) (h : j < b.length / 16) :
    (toBlocks b)[j]? = some (loadBlock (b.drop (16 * j))) := takeBlocks_getElem? _ _ _ h

theorem cbcEncBlocks_length (w : List Quad) (nr : Nat) (chain : Block) (ps : List Block) :
    (cbcEncBlocks w nr chain ps).length = ps.length := by
  induction ps generalizing chain with
  | nil => rfl
  | cons p ps ih => simp [cbcEncBlocks, ih]

theorem cbcDecBlocks_length (w : List Quad) (nr : Nat) (chain : Block) (cs : List Block) :
    (cbcDecBlocks w nr chain cs).length = cs.length := by
  induction cs generalizing chain with
  | nil => rfl
  | cons c cs ih => simp [cbcDecBlocks, ih]

theorem cbcEnc_length (key iv p : Bytes) : (cbcEnc key iv p).length = 16 * (p.length / 16) := by
  rw [cbcEnc, ofBlocks_length, cbcEncBlocks_length, toBlocks_length]

theorem cbcDec_length (key iv c : Bytes) : (cbcDec key iv c).length = 16 * (c.length / 16) := by
  rw [cbcDec, ofBlocks_length, cbcDecBlocks_length, toBlocks_length]

/-- CHAIN after a CBC loop over at least one block is the ciphertext's last whole block. -/
theorem lastChain_eq (iv c : Bytes) (h : 16 ≤ c.length) :
    lastChain iv c = loadBlock (c.drop (16 * (c.length / 16 - 1))) := by
  rw [lastChain, List.getLast?_eq_getElem?, toBlocks_length, toBlocks_getElem? _ _ (by omega), Option.getD_some]

end Sys2Proof.Machine
end

