-- ==== Sys2Proof/Laws/Memory.lean ====
section
/-! SUPPORT. The laws of the buffers: a read after a write, a buffer laid out from a byte string, and that every memory
operation keeps the canonical form. -/

namespace Sys2Proof.Machine

theorem Memory.read_nil (a : Nat) : Memory.read [] a = none := rfl

/-- A read after a write gives the byte written at its index and leaves every other index alone. -/
theorem Memory.read_write (m : Memory) (a : Nat) (b : Byte) (i : Nat) :
    (m.write a b).read i = if i = a then some b else m.read i := by
  induction m with
  | nil => by_cases h : a = i <;> simp [Memory.write, Memory.read, h, Ne.symm]
  | cons c m ih =>
    obtain ⟨k, c⟩ := c
    unfold Memory.write
    split
    · by_cases h : i = a
      · simp [Memory.read, h]
      · simp [Memory.read, h, Ne.symm h]
    · split
      · subst a
        by_cases h : i = k
        · simp [Memory.read, h]
        · simp [Memory.read, h, Ne.symm h]
      · simp only [Memory.read, ih]
        by_cases hk : k = i
        · have : i ≠ a := by omega
          simp [hk, this]
        · simp [hk]

/-- The cells of a buffer after a write are the one written and old ones. -/
theorem Memory.mem_write {m : Memory} {a : Nat} {b : Byte} {c : Host.Cell} (h : c ∈ m.write a b) :
    c.1 = a ∨ c ∈ m := by
  induction m with
  | nil => simp [Memory.write] at h; simp [h]
  | cons d m ih =>
    obtain ⟨k, d⟩ := d
    unfold Memory.write at h
    split at h
    · rcases List.mem_cons.1 h with rfl | h
      · exact .inl rfl
      · exact .inr h
    · split at h
      · rcases List.mem_cons.1 h with rfl | h
        · exact .inl rfl
        · exact .inr (List.mem_cons_of_mem _ h)
      · rcases List.mem_cons.1 h with rfl | h
        · exact .inr List.mem_cons_self
        · exact (ih h).imp id (List.mem_cons_of_mem _)

theorem Memory.wf_nil : Memory.wf [] := List.Pairwise.nil

theorem Memory.wf_cons {k : Nat} {b : Byte} {m : Memory} :
    Memory.wf ((k, b) :: m) ↔ (∀ c ∈ m, k < c.1) ∧ m.wf := by
  simp [Memory.wf]

/-- A write keeps the canonical form. -/
theorem Memory.write_wf {m : Memory} (h : m.wf) (a : Nat) (b : Byte) : (m.write a b).wf := by
  induction m with
  | nil => simp [Memory.write, Memory.wf]
  | cons c m ih =>
    obtain ⟨k, c⟩ := c
    obtain ⟨hk, hm⟩ := Memory.wf_cons.1 h
    unfold Memory.write
    split
    · rename_i hak
      refine Memory.wf_cons.2 ⟨fun d hd => ?_, h⟩
      rcases List.mem_cons.1 hd with rfl | hd
      · exact hak
      · exact hak.trans (hk d hd)
    · split
      · rename_i _ hak
        subst hak
        exact Memory.wf_cons.2 ⟨hk, hm⟩
      · refine Memory.wf_cons.2 ⟨fun d hd => ?_, ih hm⟩
        rcases Memory.mem_write hd with h1 | h1
        · omega
        · exact hk d h1

/-- A buffer laid out from a byte string holds its bytes, from index `k` on, and no other. -/
theorem Memory.read_ofBytes (k : Nat) (bs : Bytes) (i : Nat) :
    (Memory.ofBytes k bs).read i = if k ≤ i then bs[i - k]? else none := by
  induction bs generalizing k with
  | nil => simp [Memory.ofBytes, Memory.read]
  | cons b bs ih =>
    simp only [Memory.ofBytes, Memory.read, ih]
    rcases lt_trichotomy k i with h | h | h
    · obtain ⟨j, rfl⟩ : ∃ j, i = k + 1 + j := ⟨i - (k + 1), by omega⟩
      rw [if_neg (by omega), if_pos (by omega), if_pos (by omega), show k + 1 + j - (k + 1) = j by omega,
        show k + 1 + j - k = j + 1 by omega, List.getElem?_cons_succ]
    · simp [h]
    · rw [if_neg (by omega), if_neg (by omega), if_neg (by omega)]

theorem Memory.mem_ofBytes {k : Nat} {bs : Bytes} {c : Host.Cell} (h : c ∈ Memory.ofBytes k bs) :
    k ≤ c.1 ∧ c.1 < k + bs.length := by
  induction bs generalizing k with
  | nil => simp [Memory.ofBytes] at h
  | cons b bs ih =>
    rcases List.mem_cons.1 h with rfl | h
    · simp
    · have := ih h
      simp only [List.length_cons]
      omega

theorem Memory.ofBytes_wf (k : Nat) (bs : Bytes) : (Memory.ofBytes k bs).wf := by
  induction bs generalizing k with
  | nil => exact Memory.wf_nil
  | cons b bs ih => exact Memory.wf_cons.2 ⟨fun c hc => (Memory.mem_ofBytes hc).1, ih (k + 1)⟩

/-- What a store of `bs` from index `i` on leaves: its bytes below `nIn`, every other index as it was. -/
theorem read_storeIn (nIn i : Nat) (bs : Bytes) (m : Memory) (j : Nat) :
    (storeIn nIn i bs m).read j = if i ≤ j ∧ j < i + bs.length ∧ j < nIn then bs[j - i]? else m.read j := by
  induction bs generalizing i m with
  | nil => simp [storeIn]; omega
  | cons b bs ih =>
    have hm : j ≠ i → (if i < nIn then m.write i b else m).read j = m.read j := by
      intro hne
      split
      · rw [Memory.read_write, if_neg hne]
      · rfl
    simp only [storeIn, ih, List.length_cons]
    rcases lt_trichotomy i j with h | h | h
    · obtain ⟨d, rfl⟩ : ∃ d, j = i + 1 + d := ⟨j - (i + 1), by omega⟩
      rw [hm (by omega), show i + 1 + d - (i + 1) = d by omega, show i + 1 + d - i = d + 1 by omega,
        List.getElem?_cons_succ]
      by_cases hc : d < bs.length ∧ i + 1 + d < nIn
      · rw [if_pos (by omega), if_pos (by omega)]
      · rw [if_neg (by omega), if_neg (by omega)]
    · subst h
      rw [if_neg (by omega)]
      by_cases hn : i < nIn
      · rw [if_pos hn, Memory.read_write, if_pos rfl, if_pos (by omega)]
        simp
      · rw [if_neg hn, if_neg (by omega)]
    · rw [hm (by omega), if_neg (by omega), if_neg (by omega)]

theorem storeIn_wf (nIn i : Nat) (bs : Bytes) {m : Memory} (h : m.wf) : (storeIn nIn i bs m).wf := by
  induction bs generalizing i m with
  | nil => exact h
  | cons b bs ih =>
    unfold storeIn
    apply ih
    split
    · exact Memory.write_wf h i b
    · exact h

theorem storeIn_range (nIn i : Nat) (bs : Bytes) {m : Memory} (h : ∀ c ∈ m, c.1 < nIn) :
    ∀ c ∈ storeIn nIn i bs m, c.1 < nIn := by
  induction bs generalizing i m with
  | nil => exact h
  | cons b bs ih =>
    unfold storeIn
    apply ih
    split
    · intro c hc
      rcases Memory.mem_write hc with h1 | h1
      · omega
      · exact h c h1
    · exact h

end Sys2Proof.Machine
end

