-- ==== Sys2Proof/Laws/State.lean ====
section
/-! SUPPORT. What each field of State is after each named update: accept, the two completions, the cipher
initialisation, a read's answer, a dropped write, a placed command. -/

namespace Sys2Proof.Machine

variable (s : State)

/-! ### accept -/

@[simp] theorem accept_key (w : Word) : (accept w s).key = s.key := rfl
@[simp] theorem accept_iv (w : Word) : (accept w s).iv = s.iv := rfl
@[simp] theorem accept_status (w : Word) : (accept w s).status = statusAccepted (opcodeField w) := rfl
@[simp] theorem accept_inLen (w : Word) : (accept w s).inLen = s.inLen := rfl
@[simp] theorem accept_inNull (w : Word) : (accept w s).inNull = s.inNull := rfl
@[simp] theorem accept_outLen (w : Word) : (accept w s).outLen = 0 := rfl
@[simp] theorem accept_inBuf (w : Word) : (accept w s).inBuf = s.inBuf := rfl
@[simp] theorem accept_outBuf (w : Word) : (accept w s).outBuf = [] := rfl
@[simp] theorem accept_seq (w : Word) : (accept w s).seq = .busy := rfl
@[simp] theorem accept_pend (w : Word) : (accept w s).pend = w := rfl
@[simp] theorem accept_dir (w : Word) : (accept w s).dir = s.dir := rfl
@[simp] theorem accept_chain (w : Word) : (accept w s).chain = s.chain := rfl
@[simp] theorem accept_rk (w : Word) : (accept w s).rk = s.rk := rfl
@[simp] theorem accept_resetAsserted (w : Word) : (accept w s).resetAsserted = s.resetAsserted := rfl
@[simp] theorem accept_cfg (w : Word) : (accept w s).cfg = s.cfg := rfl
@[simp] theorem accept_hostOps (w : Word) : (accept w s).hostOps = s.hostOps := rfl
@[simp] theorem accept_coreWait (w : Word) : (accept w s).coreWait = Config.latency s.draws := rfl
@[simp] theorem accept_draws (w : Word) : (accept w s).draws = s.draws + 1 := rfl
@[simp] theorem accept_reads (w : Word) : (accept w s).reads = s.reads := rfl

/-! ### okState -/

@[simp] theorem okState_key (r : Option Bytes) : (okState r s).key = s.key := rfl
@[simp] theorem okState_iv (r : Option Bytes) : (okState r s).iv = s.iv := rfl
@[simp] theorem okState_status (r : Option Bytes) : (okState r s).status = statusOk r.isNone s.status := rfl
@[simp] theorem okState_inLen (r : Option Bytes) : (okState r s).inLen = s.inLen := rfl
@[simp] theorem okState_inNull (r : Option Bytes) : (okState r s).inNull = s.inNull := rfl
@[simp] theorem okState_outLen (r : Option Bytes) : (okState r s).outLen = BitVec.ofNat 32 (r.getD []).length := rfl
@[simp] theorem okState_inBuf (r : Option Bytes) : (okState r s).inBuf = s.inBuf := rfl
@[simp] theorem okState_outBuf (r : Option Bytes) : (okState r s).outBuf = Memory.ofBytes 0 (r.getD []) := rfl
@[simp] theorem okState_seq (r : Option Bytes) : (okState r s).seq = .idle := rfl
@[simp] theorem okState_pend (r : Option Bytes) : (okState r s).pend = s.pend := rfl
@[simp] theorem okState_dir (r : Option Bytes) : (okState r s).dir = s.dir := rfl
@[simp] theorem okState_chain (r : Option Bytes) : (okState r s).chain = s.chain := rfl
@[simp] theorem okState_rk (r : Option Bytes) : (okState r s).rk = s.rk := rfl
@[simp] theorem okState_resetAsserted (r : Option Bytes) : (okState r s).resetAsserted = s.resetAsserted := rfl
@[simp] theorem okState_cfg (r : Option Bytes) : (okState r s).cfg = s.cfg := rfl
@[simp] theorem okState_hostOps (r : Option Bytes) : (okState r s).hostOps = s.hostOps := rfl
@[simp] theorem okState_coreWait (r : Option Bytes) : (okState r s).coreWait = s.coreWait := rfl
@[simp] theorem okState_draws (r : Option Bytes) : (okState r s).draws = s.draws + 1 := rfl
@[simp] theorem okState_reads (r : Option Bytes) : (okState r s).reads = s.reads := rfl

/-! ### errorState -/

@[simp] theorem errorState_key (k : ErrKind) (c : ErrCause) : (errorState k c s).key = s.key := rfl
@[simp] theorem errorState_iv (k : ErrKind) (c : ErrCause) : (errorState k c s).iv = s.iv := rfl
@[simp] theorem errorState_status (k : ErrKind) (c : ErrCause) : (errorState k c s).status = statusError k c s.status := rfl
@[simp] theorem errorState_inLen (k : ErrKind) (c : ErrCause) : (errorState k c s).inLen = s.inLen := rfl
@[simp] theorem errorState_inNull (k : ErrKind) (c : ErrCause) : (errorState k c s).inNull = s.inNull := rfl
@[simp] theorem errorState_outLen (k : ErrKind) (c : ErrCause) : (errorState k c s).outLen = 0 := rfl
@[simp] theorem errorState_inBuf (k : ErrKind) (c : ErrCause) : (errorState k c s).inBuf = s.inBuf := rfl
@[simp] theorem errorState_outBuf (k : ErrKind) (c : ErrCause) : (errorState k c s).outBuf = [] := rfl
@[simp] theorem errorState_seq (k : ErrKind) (c : ErrCause) : (errorState k c s).seq = .idle := rfl
@[simp] theorem errorState_pend (k : ErrKind) (c : ErrCause) : (errorState k c s).pend = s.pend := rfl
@[simp] theorem errorState_dir (k : ErrKind) (c : ErrCause) : (errorState k c s).dir = s.dir := rfl
@[simp] theorem errorState_chain (k : ErrKind) (c : ErrCause) : (errorState k c s).chain = s.chain := rfl
@[simp] theorem errorState_rk (k : ErrKind) (c : ErrCause) : (errorState k c s).rk = s.rk := rfl
@[simp] theorem errorState_resetAsserted (k : ErrKind) (c : ErrCause) : (errorState k c s).resetAsserted = s.resetAsserted := rfl
@[simp] theorem errorState_cfg (k : ErrKind) (c : ErrCause) : (errorState k c s).cfg = s.cfg := rfl
@[simp] theorem errorState_hostOps (k : ErrKind) (c : ErrCause) : (errorState k c s).hostOps = s.hostOps := rfl
@[simp] theorem errorState_coreWait (k : ErrKind) (c : ErrCause) : (errorState k c s).coreWait = s.coreWait := rfl
@[simp] theorem errorState_draws (k : ErrKind) (c : ErrCause) : (errorState k c s).draws = s.draws + 1 := rfl
@[simp] theorem errorState_reads (k : ErrKind) (c : ErrCause) : (errorState k c s).reads = s.reads := rfl

/-! ### engineState -/

@[simp] theorem engineState_key (d : Dir) : (engineState d s).key = s.key := rfl
@[simp] theorem engineState_iv (d : Dir) : (engineState d s).iv = s.iv := rfl
@[simp] theorem engineState_status (d : Dir) : (engineState d s).status = s.status := rfl
@[simp] theorem engineState_inLen (d : Dir) : (engineState d s).inLen = s.inLen := rfl
@[simp] theorem engineState_inNull (d : Dir) : (engineState d s).inNull = s.inNull := rfl
@[simp] theorem engineState_outLen (d : Dir) : (engineState d s).outLen = s.outLen := rfl
@[simp] theorem engineState_inBuf (d : Dir) : (engineState d s).inBuf = s.inBuf := rfl
@[simp] theorem engineState_outBuf (d : Dir) : (engineState d s).outBuf = s.outBuf := rfl
@[simp] theorem engineState_seq (d : Dir) : (engineState d s).seq = s.seq := rfl
@[simp] theorem engineState_pend (d : Dir) : (engineState d s).pend = s.pend := rfl
@[simp] theorem engineState_dir (d : Dir) : (engineState d s).dir = d := rfl
@[simp] theorem engineState_chain (d : Dir) : (engineState d s).chain = loadBlock s.iv := rfl
@[simp] theorem engineState_rk (d : Dir) : (engineState d s).rk = keyExpansion s.key := rfl
@[simp] theorem engineState_resetAsserted (d : Dir) : (engineState d s).resetAsserted = s.resetAsserted := rfl
@[simp] theorem engineState_cfg (d : Dir) : (engineState d s).cfg = s.cfg := rfl
@[simp] theorem engineState_hostOps (d : Dir) : (engineState d s).hostOps = s.hostOps := rfl
@[simp] theorem engineState_coreWait (d : Dir) : (engineState d s).coreWait = s.coreWait := rfl
@[simp] theorem engineState_draws (d : Dir) : (engineState d s).draws = s.draws := rfl
@[simp] theorem engineState_reads (d : Dir) : (engineState d s).reads = s.reads := rfl

/-! ### respond -/

@[simp] theorem respond_key (a n : Nat) (v : Word) : (respond a n v s).key = s.key := rfl
@[simp] theorem respond_iv (a n : Nat) (v : Word) : (respond a n v s).iv = s.iv := rfl
@[simp] theorem respond_status (a n : Nat) (v : Word) : (respond a n v s).status = s.status := rfl
@[simp] theorem respond_inLen (a n : Nat) (v : Word) : (respond a n v s).inLen = s.inLen := rfl
@[simp] theorem respond_inNull (a n : Nat) (v : Word) : (respond a n v s).inNull = s.inNull := rfl
@[simp] theorem respond_outLen (a n : Nat) (v : Word) : (respond a n v s).outLen = s.outLen := rfl
@[simp] theorem respond_inBuf (a n : Nat) (v : Word) : (respond a n v s).inBuf = s.inBuf := rfl
@[simp] theorem respond_outBuf (a n : Nat) (v : Word) : (respond a n v s).outBuf = s.outBuf := rfl
@[simp] theorem respond_seq (a n : Nat) (v : Word) : (respond a n v s).seq = s.seq := rfl
@[simp] theorem respond_pend (a n : Nat) (v : Word) : (respond a n v s).pend = s.pend := rfl
@[simp] theorem respond_dir (a n : Nat) (v : Word) : (respond a n v s).dir = s.dir := rfl
@[simp] theorem respond_chain (a n : Nat) (v : Word) : (respond a n v s).chain = s.chain := rfl
@[simp] theorem respond_rk (a n : Nat) (v : Word) : (respond a n v s).rk = s.rk := rfl
@[simp] theorem respond_resetAsserted (a n : Nat) (v : Word) : (respond a n v s).resetAsserted = s.resetAsserted := rfl
@[simp] theorem respond_cfg (a n : Nat) (v : Word) : (respond a n v s).cfg = s.cfg := rfl
@[simp] theorem respond_hostOps (a n : Nat) (v : Word) : (respond a n v s).hostOps = s.hostOps := rfl
@[simp] theorem respond_coreWait (a n : Nat) (v : Word) : (respond a n v s).coreWait = s.coreWait := rfl
@[simp] theorem respond_draws (a n : Nat) (v : Word) : (respond a n v s).draws = s.draws + 1 := rfl
@[simp] theorem respond_reads (a n : Nat) (v : Word) : (respond a n v s).reads = ⟨a, n, v⟩ :: s.reads := rfl

/-! ### dropWrite -/

@[simp] theorem dropWrite_key : (dropWrite s).key = s.key := rfl
@[simp] theorem dropWrite_iv : (dropWrite s).iv = s.iv := rfl
@[simp] theorem dropWrite_status : (dropWrite s).status = statusDropped s.status := rfl
@[simp] theorem dropWrite_inLen : (dropWrite s).inLen = s.inLen := rfl
@[simp] theorem dropWrite_inNull : (dropWrite s).inNull = s.inNull := rfl
@[simp] theorem dropWrite_outLen : (dropWrite s).outLen = s.outLen := rfl
@[simp] theorem dropWrite_inBuf : (dropWrite s).inBuf = s.inBuf := rfl
@[simp] theorem dropWrite_outBuf : (dropWrite s).outBuf = s.outBuf := rfl
@[simp] theorem dropWrite_seq : (dropWrite s).seq = s.seq := rfl
@[simp] theorem dropWrite_pend : (dropWrite s).pend = s.pend := rfl
@[simp] theorem dropWrite_dir : (dropWrite s).dir = s.dir := rfl
@[simp] theorem dropWrite_chain : (dropWrite s).chain = s.chain := rfl
@[simp] theorem dropWrite_rk : (dropWrite s).rk = s.rk := rfl
@[simp] theorem dropWrite_resetAsserted : (dropWrite s).resetAsserted = s.resetAsserted := rfl
@[simp] theorem dropWrite_cfg : (dropWrite s).cfg = s.cfg := rfl
@[simp] theorem dropWrite_hostOps : (dropWrite s).hostOps = s.hostOps := rfl
@[simp] theorem dropWrite_coreWait : (dropWrite s).coreWait = s.coreWait := rfl
@[simp] theorem dropWrite_draws : (dropWrite s).draws = s.draws := rfl
@[simp] theorem dropWrite_reads : (dropWrite s).reads = s.reads := rfl

/-! ### placeCommand -/

@[simp] theorem placeCommand_key (w : Word) : (placeCommand w s).key = s.key := rfl
@[simp] theorem placeCommand_iv (w : Word) : (placeCommand w s).iv = s.iv := rfl
@[simp] theorem placeCommand_status (w : Word) : (placeCommand w s).status = statusAccepted (opcodeField w) := rfl
@[simp] theorem placeCommand_inLen (w : Word) : (placeCommand w s).inLen = s.inLen := rfl
@[simp] theorem placeCommand_inNull (w : Word) : (placeCommand w s).inNull = s.inNull := rfl
@[simp] theorem placeCommand_outLen (w : Word) : (placeCommand w s).outLen = 0 := rfl
@[simp] theorem placeCommand_inBuf (w : Word) : (placeCommand w s).inBuf = s.inBuf := rfl
@[simp] theorem placeCommand_outBuf (w : Word) : (placeCommand w s).outBuf = [] := rfl
@[simp] theorem placeCommand_seq (w : Word) : (placeCommand w s).seq = .busy := rfl
@[simp] theorem placeCommand_pend (w : Word) : (placeCommand w s).pend = w := rfl
@[simp] theorem placeCommand_dir (w : Word) : (placeCommand w s).dir = s.dir := rfl
@[simp] theorem placeCommand_chain (w : Word) : (placeCommand w s).chain = s.chain := rfl
@[simp] theorem placeCommand_rk (w : Word) : (placeCommand w s).rk = s.rk := rfl
@[simp] theorem placeCommand_resetAsserted (w : Word) : (placeCommand w s).resetAsserted = false := rfl
@[simp] theorem placeCommand_cfg (w : Word) : (placeCommand w s).cfg = s.cfg := rfl
@[simp] theorem placeCommand_hostOps (w : Word) : (placeCommand w s).hostOps = s.hostOps := rfl
@[simp] theorem placeCommand_coreWait (w : Word) : (placeCommand w s).coreWait = 0 := rfl
@[simp] theorem placeCommand_draws (w : Word) : (placeCommand w s).draws = s.draws + 1 := rfl
@[simp] theorem placeCommand_reads (w : Word) : (placeCommand w s).reads = s.reads := rfl

/-! ### STATUS -/

@[simp] theorem statusAccepted_busy (o : BitVec 4) : (statusAccepted o).busy = true := rfl
@[simp] theorem statusAccepted_done (o : BitVec 4) : (statusAccepted o).done = false := rfl
@[simp] theorem statusAccepted_err (o : BitVec 4) : (statusAccepted o).err = false := rfl
@[simp] theorem statusAccepted_outNull (o : BitVec 4) : (statusAccepted o).outNull = false := rfl
@[simp] theorem statusAccepted_ovr (o : BitVec 4) : (statusAccepted o).ovr = false := rfl
@[simp] theorem statusAccepted_errKind (o : BitVec 4) : (statusAccepted o).errKind = .none := rfl
@[simp] theorem statusAccepted_errCause (o : BitVec 4) : (statusAccepted o).errCause = .none := rfl
@[simp] theorem statusAccepted_lastOp (o : BitVec 4) : (statusAccepted o).lastOp = o := rfl

@[simp] theorem statusDropped_busy (st : Status) : (statusDropped st).busy = st.busy := rfl
@[simp] theorem statusDropped_done (st : Status) : (statusDropped st).done = st.done := rfl
@[simp] theorem statusDropped_err (st : Status) : (statusDropped st).err = st.err := rfl
@[simp] theorem statusDropped_outNull (st : Status) : (statusDropped st).outNull = st.outNull := rfl
@[simp] theorem statusDropped_ovr (st : Status) : (statusDropped st).ovr = true := rfl
@[simp] theorem statusDropped_errKind (st : Status) : (statusDropped st).errKind = st.errKind := rfl
@[simp] theorem statusDropped_errCause (st : Status) : (statusDropped st).errCause = st.errCause := rfl
@[simp] theorem statusDropped_lastOp (st : Status) : (statusDropped st).lastOp = st.lastOp := rfl

@[simp] theorem statusOk_busy (b : Bool) (st : Status) : (statusOk b st).busy = false := rfl
@[simp] theorem statusOk_done (b : Bool) (st : Status) : (statusOk b st).done = true := rfl
@[simp] theorem statusOk_err (b : Bool) (st : Status) : (statusOk b st).err = false := rfl
@[simp] theorem statusOk_outNull (b : Bool) (st : Status) : (statusOk b st).outNull = b := rfl
@[simp] theorem statusOk_ovr (b : Bool) (st : Status) : (statusOk b st).ovr = st.ovr := rfl
@[simp] theorem statusOk_errKind (b : Bool) (st : Status) : (statusOk b st).errKind = .none := rfl
@[simp] theorem statusOk_errCause (b : Bool) (st : Status) : (statusOk b st).errCause = .none := rfl
@[simp] theorem statusOk_lastOp (b : Bool) (st : Status) : (statusOk b st).lastOp = st.lastOp := rfl

@[simp] theorem statusError_busy (k : ErrKind) (c : ErrCause) (st : Status) : (statusError k c st).busy = false := rfl
@[simp] theorem statusError_done (k : ErrKind) (c : ErrCause) (st : Status) : (statusError k c st).done = true := rfl
@[simp] theorem statusError_err (k : ErrKind) (c : ErrCause) (st : Status) : (statusError k c st).err = true := rfl
@[simp] theorem statusError_outNull (k : ErrKind) (c : ErrCause) (st : Status) : (statusError k c st).outNull = true := rfl
@[simp] theorem statusError_ovr (k : ErrKind) (c : ErrCause) (st : Status) : (statusError k c st).ovr = st.ovr := rfl
@[simp] theorem statusError_errKind (k : ErrKind) (c : ErrCause) (st : Status) : (statusError k c st).errKind = k := rfl
@[simp] theorem statusError_errCause (k : ErrKind) (c : ErrCause) (st : Status) : (statusError k c st).errCause = c := rfl
@[simp] theorem statusError_lastOp (k : ErrKind) (c : ErrCause) (st : Status) : (statusError k c st).lastOp = st.lastOp := rfl

end Sys2Proof.Machine
end

