-- ==== Sys2Proof/Laws/Step.lean ====
section
/-! SUPPORT. What a step, a run and a bus access can do: the inversion of withAccess, whose turn it is, and a run's first
step. -/

namespace Sys2Proof.Machine

/-- What an access that goes through has met: an offset in the window, and either reset is asserted or the access is one
the bus lets through (spec 20_memory.md R51, R53 to R55, 70_reset_and_hazards.md R233). -/
theorem withAccess_next {s t : State} {addr n : Nat} {k : Nat → Outcome State Fault Refusal}
    (h : withAccess s addr n k = .next t) :
    ∃ off, busOffset s.cfg addr = some off ∧ k off = .next t ∧
      (s.resetAsserted = true ∨ accessFault off n = none) := by
  unfold withAccess at h
  split at h
  · cases h
  · rename_i off ho
    split at h
    · exact ⟨off, ho, h, .inl ‹_›⟩
    · split at h
      · cases h
      · exact ⟨off, ho, h, .inr ‹_›⟩

/-- The offset of `BASE + off` is `off`, for `off` in the window (R50). -/
theorem busOffset_base (c : Config) {off : Nat} (h : off < 0x40000) : busOffset c (c.base + off) = some off := by
  unfold busOffset windowSize
  rw [if_pos ⟨by omega, by omega⟩, Nat.add_sub_cancel_left]

/-- What a write does while BUSY = 1: nothing, or it is dropped and sets OVR (R57, R237, R238). -/
theorem writeData_busy {s : State} (h : s.status.busy = true) (off n : Nat) (v : Word) :
    writeData off n v s = s ∨ writeData off n v s = dropWrite s := by
  unfold writeData cmdWrite inputWrite
  simp only [h, if_true]
  split
  · split
    · exact .inr rfl
    · split
      · exact .inl rfl
      · split
        · exact .inr rfl
        · split
          · exact .inr rfl
          · exact .inl rfl
  · exact .inr rfl
  · exact .inl rfl
  · exact .inl rfl

/-- What a write does while BUSY = 0: nothing, an accept, or a store to IN_LEN, IN_CTRL or IN_BUF (R51, R170). -/
theorem writeData_idle {s : State} (h : s.status.busy = false) (off n : Nat) (v : Word) :
    writeData off n v s = s ∨ writeData off n v s = accept v s ∨ writeData off n v s = { s with inLen := v } ∨
      writeData off n v s = { s with inNull := v.getLsbD 0 } ∨
      writeData off n v s =
        { s with inBuf := storeIn s.cfg.nIn (off - inBufBase) (leBytes n v) s.inBuf } := by
  unfold writeData cmdWrite inputWrite
  simp only [h]
  split
  · split
    · exact .inr (.inl rfl)
    · split
      · exact .inl rfl
      · split
        · exact .inr (.inr (.inl rfl))
        · split
          · exact .inr (.inr (.inr (.inl rfl)))
          · exact .inl rfl
  · exact .inr (.inr (.inr (.inr rfl)))
  · exact .inl rfl
  · exact .inl rfl

theorem coreNext_iff (s : State) :
    coreNext s = true ↔ s.seq = .busy ∧ s.resetAsserted = false ∧ (s.coreWait = 0 ∨ s.hostOps = []) := by
  simp [coreNext, and_assoc]

/-- The core's turn. -/
theorem step_core {s : State} (h : coreNext s = true) : step s = exec (decodeWord s.pend) s := if_pos h

/-- The host's turn, with an event to come. -/
theorem step_host {s : State} {op : HostOp} {rest : List HostOp} (h : coreNext s = false)
    (ho : s.hostOps = op :: rest) :
    step s = hostEvent op { s with hostOps := rest, coreWait := s.coreWait - 1 } := by
  rw [step, h, if_neg (by decide), hostNext, ho]

/-- The host's turn, with no event to come. -/
theorem step_idle {s : State} (h : coreNext s = false) (ho : s.hostOps = []) : step s = .next s := by
  rw [step, h, if_neg (by decide), hostNext, ho]

/-- A run whose first step answers a next state goes on from it, for any machine behind the host's interface. -/
theorem coreRun_next (M : Host.Core) (k : Nat) (s u : M.State) (h : M.step s = .next u) :
    M.run (k + 1) s = M.run k u := by
  show (match M.step s with
    | .next s' => M.run k s'
    | .fault r => .fault r
    | .refused r => .refused r) = _
  rw [h]

theorem coreRun_one (M : Host.Core) (s : M.State) : M.run 1 s = M.step s := by
  show (match M.step s with
    | .next s' => Host.Outcome.next s'
    | .fault r => Host.Outcome.fault r
    | .refused r => Host.Outcome.refused r) = _
  cases M.step s <;> rfl

theorem run_succ_next {s u : State} (h : step s = .next u) (k : Nat) :
    Sys2Proof.core.run (k + 1) s = Sys2Proof.core.run k u := coreRun_next Sys2Proof.core k s u h

theorem run_one (s : State) : Sys2Proof.core.run 1 s = step s := coreRun_one Sys2Proof.core s

end Sys2Proof.Machine
end

