-- ==== Sys2Proof/Laws/Bus.lean ====
section
/-! SUPPORT. The laws of the bus window: the map, what a legal access and a refused one answer, and the little-endian
value of a transfer (spec 20_memory.md R50 to R56). -/

namespace Sys2Proof.Machine

/-! ### The map -/

theorem region_register {off : Nat} (h : off < 0x14) : region off = .register := if_pos h

theorem region_inWindow {off : Nat} (h : 0x10000 ≤ off) (h' : off < 0x20000) : region off = .inWindow := by
  unfold region inBufBase outBufBase
  rw [if_neg (by omega), if_neg (by omega), if_pos (by omega)]

theorem region_outWindow {off : Nat} (h : 0x20000 ≤ off) (h' : off < 0x30000) : region off = .outWindow := by
  unfold region inBufBase outBufBase
  rw [if_neg (by omega), if_neg (by omega), if_neg (by omega), if_pos (by omega)]

theorem region_reserved {off : Nat} (h : (0x14 ≤ off ∧ off < 0x10000) ∨ 0x30000 ≤ off) : region off = .reserved := by
  unfold region inBufBase outBufBase
  rcases h with h | h
  · rw [if_neg (by omega), if_pos (by omega)]
  · rw [if_neg (by omega), if_neg (by omega), if_neg (by omega), if_neg (by omega)]

theorem region_ne_register {off : Nat} (h : 0x14 ≤ off) : region off ≠ .register := by
  unfold region
  rw [if_neg (by omega)]
  split
  · decide
  · split
    · decide
    · split <;> decide

/-! ### Accesses, with reset not asserted -/

theorem accessFault_legal {off n : Nat} (h : legalAccess off n) : accessFault off n = none ∧ off < 0x40000 := by
  unfold legalAccess at h
  unfold accessFault
  split at h
  · rw [if_pos (region_register ‹_›), if_pos h]
    exact ⟨rfl, by omega⟩
  · rw [if_neg (region_ne_register (by omega)), if_pos h.2]
    exact ⟨rfl, h.1⟩

/-- A legal read hands the host its data. -/
theorem hostRead_legal {s : State} {off n : Nat} (hr : s.resetAsserted = false) (h : legalAccess off n) :
    hostEvent (.read (s.cfg.base + off) n) s = .next (respond (s.cfg.base + off) n (s.readData off n) s) := by
  obtain ⟨h1, h2⟩ := accessFault_legal h
  simp [hostEvent, memRead, withAccess, busOffset_base _ h2, hr, h1]

/-- A legal write does what `writeData` says. -/
theorem hostWrite_legal {s : State} {off n : Nat} {v : Word} (hr : s.resetAsserted = false) (h : legalAccess off n) :
    hostEvent (.write (s.cfg.base + off) n v) s = .next (writeData off n v s) := by
  obtain ⟨h1, h2⟩ := accessFault_legal h
  simp [hostEvent, memWrite, withAccess, busOffset_base _ h2, hr, h1]

theorem hostRead_fault {s : State} {off n : Nat} {f : Fault} (hr : s.resetAsserted = false) (h2 : off < 0x40000)
    (h1 : accessFault off n = some f) : hostEvent (.read (s.cfg.base + off) n) s = .fault f := by
  simp [hostEvent, memRead, withAccess, busOffset_base _ h2, hr, h1]

theorem hostWrite_fault {s : State} {off n : Nat} {f : Fault} {v : Word} (hr : s.resetAsserted = false)
    (h2 : off < 0x40000) (h1 : accessFault off n = some f) :
    hostEvent (.write (s.cfg.base + off) n v) s = .fault f := by
  simp [hostEvent, memWrite, withAccess, busOffset_base _ h2, hr, h1]

/-! ### The little-endian value -/

theorem leNat_lt (bs : Bytes) : leNat bs < 256 ^ bs.length := by
  induction bs with
  | nil => simp [leNat]
  | cons b bs ih =>
    simp only [leNat, List.length_cons, pow_succ]
    have := b.isLt
    omega

/-- Byte `k` of a little-endian number is byte `k` of its string (R52). -/
theorem leNat_byte (bs : Bytes) (k : Nat) (h : k < bs.length) : leNat bs / 256 ^ k % 256 = bs[k].toNat := by
  induction bs generalizing k with
  | nil => simp at h
  | cons b bs ih =>
    have hb := b.isLt
    cases k with
    | zero =>
      simp only [leNat, pow_zero, Nat.div_one, List.getElem_cons_zero]
      omega
    | succ k =>
      simp only [leNat, List.getElem_cons_succ, pow_succ]
      rw [← ih k (by simpa using h), mul_comm (256 ^ k) 256, ← Nat.div_div_eq_div_mul]
      congr 2
      omega

theorem leNat_zeros (n : Nat) : leNat (List.replicate n (0 : Byte)) = 0 := by
  induction n with
  | zero => rfl
  | succ n ih =>
    rw [List.replicate_succ, leNat, ih]
    rfl

/-- The little-endian bytes of a word give the word back (R52). -/
theorem leWord_leBytes (w : Word) : leWord (leBytes 4 w) = w := by
  apply BitVec.eq_of_toNat_eq
  have hr : List.range 4 = [0, 1, 2, 3] := rfl
  simp only [leWord, leBytes, hr, List.map, leNat, wordByte, BitVec.toNat_ofNat, BitVec.extractLsb'_toNat,
    Nat.shiftRight_eq_div_pow]
  have := w.isLt
  omega

/-- A read all of whose bytes are zero reads zero. -/
theorem readData_zero {s : State} {off n : Nat} (hr : s.resetAsserted = false)
    (h : ∀ k < n, s.peek (off + k) = some 0) : s.readData off n = 0 := by
  have hz : (List.range n).map (fun k => s.busByte (off + k)) = List.replicate n 0 := by
    apply List.ext_getElem (by simp)
    intro i h1 h2
    simp only [List.length_map, List.length_range] at h1
    simp [State.busByte, hr, h i h1]
  rw [State.readData, hz, leWord, leNat_zeros]
  rfl

theorem storeIn_beyond {nIn i : Nat} (bs : Bytes) (m : Memory) (h : nIn ≤ i) : storeIn nIn i bs m = m := by
  induction bs generalizing i with
  | nil => rfl
  | cons b bs ih => rw [storeIn, if_neg (by omega), ih (by omega)]

/-- The number of a concatenation of bit fields. -/
theorem toNat_append_add {m n : Nat} (x : BitVec m) (y : BitVec n) : (x ++ y).toNat = x.toNat * 2 ^ n + y.toNat := by
  rw [BitVec.toNat_append, ← Nat.shiftLeft_add_eq_or_of_lt y.isLt, Nat.shiftLeft_eq]

end Sys2Proof.Machine
end

