-- ==== Sys2Proof/Laws/Commands.lean ====
section
/-! SUPPORT. What a command can do, said once: the operand it reads, what the cipher initialisation answers, and the two
ways a command ends (`exec_ends`), which later proofs cite instead of unfolding exec. -/

namespace Sys2Proof.Machine

theorem next_inj {s t : State} (h : (Host.Outcome.next s : Outcome State Fault Refusal) = .next t) : s = t := by
  injection h

/-! ### The operand -/

theorem inBytes_length (s : State) : s.inBytes.length = s.inLen.toNat := by simp [State.inBytes]

/-- A present operand: IN_NULL is 0 and its length is IN_LEN (R172). -/
theorem input_some {s : State} {t : Bytes} (h : s.input = some t) :
    s.inNull = false ∧ t = s.inBytes ∧ t.length = s.inLen.toNat := by
  unfold State.input at h
  split at h
  · cases h
  · cases h
    exact ⟨by simp_all, rfl, inBytes_length s⟩

theorem input_null {s : State} (h : s.inNull = true) : s.input = none := if_pos h

theorem input_present {s : State} (h : s.inNull = false) : s.input = some s.inBytes := by
  simp [State.input, h]

theorem lenOutOfRange_null {s : State} (h : s.inNull = true) : s.lenOutOfRange = false := by
  simp [State.lenOutOfRange, h]

theorem lenOutOfRange_some {s : State} {t : Bytes} (h : s.input = some t) :
    s.lenOutOfRange = decide (s.cfg.nIn < t.length) := by
  obtain ⟨h1, -, h2⟩ := input_some h
  simp [State.lenOutOfRange, h1, h2]

theorem withInput_ok {s : State} {k : Option Bytes → Outcome State Fault Refusal} (h : s.lenOutOfRange = false) :
    withInput s k = k s.input := by
  simp [withInput, h]

theorem withInput_fail {s : State} {k : Option Bytes → Outcome State Fault Refusal} (h : s.lenOutOfRange = true) :
    withInput s k = .next (errorState .cmd .lenRange s) := by
  simp [withInput, h, raiseError]

/-! ### The hex unit's lengths -/

theorem bytesToHex_length (b : Bytes) : (bytesToHex b).length = 2 * b.length := by
  induction b with
  | nil => rfl
  | cons b bs ih => simp only [bytesToHex, List.length_cons, ih]; omega

theorem hexPairs_length : ∀ (s b : Bytes), hexPairs s = some b → b.length = s.length / 2
  | [], b, h => by cases h; rfl
  | [x], b, h => by cases h; simp
  | x :: y :: s, b, h => by
    unfold hexPairs at h
    split at h
    · cases hp : hexPairs s with
      | none => rw [hp] at h; cases h
      | some r =>
        rw [hp] at h
        cases h
        have := hexPairs_length s r hp
        simp only [List.length_cons]
        omega
    · cases h

theorem hexToBytes_ok {o : OddHex} {s b : Bytes} (h : hexToBytes o (some s) = .ok b) :
    hexPairs s = some b ∧ 2 ≤ s.length := by
  unfold hexToBytes at h
  simp only at h
  split at h
  · cases h
  · split at h
    · cases h
    · split at h
      · cases h
        exact ⟨‹_›, by omega⟩
      · cases h

/-! ### The cipher initialisation and the padding -/

/-- The three answers of the cipher initialisation (R125 to R127). -/
theorem initCipher_cases (d : Dir) (s : State) :
    (keyLenValid s.key = false ∧ initCipher d s = .error .keyLen) ∨
    (keyLenValid s.key = true ∧ s.iv.length ≠ 16 ∧ initCipher d s = .error .ivLen) ∨
    (keyLenValid s.key = true ∧ s.iv.length = 16 ∧ initCipher d s = .ok (engineState d s)) := by
  unfold initCipher
  cases hk : keyLenValid s.key
  · simp
  · by_cases hi : s.iv.length = 16 <;> simp [hi]

theorem keyLenValid_iff (key : Bytes) :
    keyLenValid key = true ↔ key.length = 16 ∨ key.length = 24 ∨ key.length = 32 := by
  simp [keyLenValid, or_assoc]

theorem pad_length (t : Bytes) : (pad t).length = 16 * (t.length / 16 + 1) := by
  simp only [pad, padLen, List.length_append, List.length_replicate]
  omega

/-- The length of ENCODE's result (R173). -/
theorem encode_result_length (key iv t : Bytes) :
    (bytesToHex (cbcEnc key iv (pad t))).length = 32 * (t.length / 16 + 1) := by
  rw [bytesToHex_length, cbcEnc_length, pad_length]
  omega

/-! ### How a command ends -/

/-- The ways the command `i` can end from `s`: it fails with a pair R202 lists for it, or completes with a result that
fits OUT_BUF; a cipher command may have set the engine first. -/
inductive Ends (i : Instr) (s : State) : State → Prop
  | failed (k : ErrKind) (c : ErrCause) (u : State) (pair : (k, c) ∈ errorPairs i)
      (engine : u = s ∨ ∃ d, (i = .encode ∨ i = .decode) ∧ u = engineState d s) : Ends i s (errorState k c u)
  | completed (r : Option Bytes) (u : State) (fits : s.cfg.wf → (r.getD []).length ≤ s.cfg.nOut)
      (engine : u = s ∨ ∃ d ch, (i = .encode ∨ i = .decode) ∧ u = { engineState d s with chain := ch }) :
      Ends i s (okState r u)

theorem withInput_ends {i : Instr} {s : State} {k : Option Bytes → Outcome State Fault Refusal}
    (hp : (ErrKind.cmd, ErrCause.lenRange) ∈ errorPairs i)
    (hk : (∀ t, s.input = some t → t.length ≤ s.cfg.nIn) → ∃ t, k s.input = .next t ∧ Ends i s t) :
    ∃ t, withInput s k = .next t ∧ Ends i s t := by
  cases h : s.lenOutOfRange with
  | true => exact ⟨_, withInput_fail h, .failed _ _ s hp (.inl rfl)⟩
  | false =>
    rw [withInput_ok h]
    refine hk fun t ht => ?_
    rw [lenOutOfRange_some ht] at h
    simpa using h

theorem decodeCiphertext_ends {s : State} (b : Bytes) (hb : b.length ≤ s.cfg.nIn) :
    ∃ t, decodeCiphertext b (engineState .dec s) = .next t ∧ Ends .decode s t := by
  unfold decodeCiphertext
  split
  · exact ⟨_, rfl, .failed _ _ _ (by simp [errorPairs]) (.inr ⟨.dec, .inr rfl, rfl⟩)⟩
  · refine ⟨_, rfl, .completed _ _ (fun _ => ?_) (.inr ⟨.dec, _, .inr rfl, rfl⟩)⟩
    simp only [Option.getD_some, cbcDec_length, Config.nOut]
    omega

theorem withDecrypt_ends {s : State} {k : State → Outcome State Fault Refusal}
    (hk : ∃ t, k (engineState .dec s) = .next t ∧ Ends .decode s t) :
    ∃ t, withDecrypt s k = .next t ∧ Ends .decode s t := by
  unfold withDecrypt
  rcases initCipher_cases .dec s with ⟨-, e⟩ | ⟨-, -, e⟩ | ⟨-, -, e⟩ <;> rw [e]
  · exact ⟨_, rfl, .failed _ _ s (by simp [errorPairs]) (.inl rfl)⟩
  · exact ⟨_, rfl, .failed _ _ s (by simp [errorPairs]) (.inl rfl)⟩
  · exact hk

theorem execEncode_ends (s : State) : ∃ t, execEncode s = .next t ∧ Ends .encode s t := by
  refine withInput_ends (by simp [errorPairs]) fun hl => ?_
  cases h : s.input with
  | none => exact ⟨_, rfl, .failed _ _ s (by simp [errorPairs]) (.inl rfl)⟩
  | some t =>
    dsimp only
    split
    · exact ⟨_, rfl, .failed _ _ s (by simp [errorPairs]) (.inl rfl)⟩
    · rcases initCipher_cases .enc s with ⟨-, e⟩ | ⟨-, -, e⟩ | ⟨-, -, e⟩ <;> rw [e]
      · exact ⟨_, rfl, .failed _ _ s (by simp [errorPairs]) (.inl rfl)⟩
      · exact ⟨_, rfl, .failed _ _ s (by simp [errorPairs]) (.inl rfl)⟩
      · refine ⟨_, rfl, .completed _ _ (fun _ => ?_) (.inr ⟨.enc, _, .inl rfl, rfl⟩)⟩
        have := hl t h
        simp only [Option.getD_some, encode_result_length, Config.nOut, engineState_key, engineState_iv]
        omega

theorem execDecode_ends (s : State) : ∃ t, execDecode s = .next t ∧ Ends .decode s t := by
  refine withInput_ends (by simp [errorPairs]) fun hl => ?_
  cases h : s.input with
  | none => exact ⟨_, rfl, .failed _ _ s (by simp [errorPairs]) (.inl rfl)⟩
  | some t =>
    dsimp only
    split
    · exact ⟨_, rfl, .failed _ _ s (by simp [errorPairs]) (.inl rfl)⟩
    · cases hx : hexToBytes s.cfg.oddHex (some t) with
      | failOdd => exact ⟨_, rfl, .failed _ _ s (by simp [errorPairs]) (.inl rfl)⟩
      | failDigit => exact ⟨_, rfl, .failed _ _ s (by simp [errorPairs]) (.inl rfl)⟩
      | absent =>
        refine withDecrypt_ends ?_
        unfold decodeAbsent
        split
        · exact ⟨_, rfl, .failed _ _ _ (by simp [errorPairs]) (.inr ⟨.dec, .inr rfl, rfl⟩)⟩
        · exact decodeCiphertext_ends _ (Nat.zero_le _)
      | ok b =>
        refine withDecrypt_ends (decodeCiphertext_ends b ?_)
        have h1 := hl t h
        have h2 := hexPairs_length _ _ (hexToBytes_ok hx).1
        omega

theorem execHexEnc_ends (s : State) : ∃ t, execHexEnc s = .next t ∧ Ends .hexEnc s t := by
  refine withInput_ends (by simp [errorPairs]) fun hl => ⟨_, rfl, .completed _ s (fun _ => ?_) (.inl rfl)⟩
  cases h : s.input with
  | none => simp [bytesToHexOpt]
  | some t =>
    have := hl t h
    simp only [bytesToHexOpt, Option.map_some, Option.getD_some, bytesToHex_length, Config.nOut]
    omega

theorem execHexDec_ends (s : State) : ∃ t, execHexDec s = .next t ∧ Ends .hexDec s t := by
  refine withInput_ends (by simp [errorPairs]) fun hl => ?_
  cases hx : hexToBytes s.cfg.oddHex s.input with
  | absent => exact ⟨_, rfl, .completed _ s (by simp) (.inl rfl)⟩
  | failOdd => exact ⟨_, rfl, .failed _ _ s (by simp [errorPairs]) (.inl rfl)⟩
  | failDigit => exact ⟨_, rfl, .failed _ _ s (by simp [errorPairs]) (.inl rfl)⟩
  | ok b =>
    refine ⟨_, rfl, .completed _ s (fun _ => ?_) (.inl rfl)⟩
    cases h : s.input with
    | none => rw [h] at hx; cases hx
    | some t =>
      have h1 := hl t h
      rw [h] at hx
      have h2 := hexPairs_length _ _ (hexToBytes_ok hx).1
      simp only [Option.getD_some, Config.nOut]
      omega

/-- Every command ends, in one of the two ways (R171, R178, R179, R202). -/
theorem exec_ends (i : Instr) (s : State) : ∃ t, exec i s = .next t ∧ Ends i s t := by
  cases i with
  | encode => exact execEncode_ends s
  | decode => exact execDecode_ends s
  | hexEnc => exact execHexEnc_ends s
  | hexDec => exact execHexDec_ends s
  | illegal r o => exact ⟨_, rfl, .failed _ _ s (by simp [errorPairs]) (.inl rfl)⟩

/-- The inversion of exec. -/
theorem exec_next {i : Instr} {s t : State} (h : exec i s = .next t) : Ends i s t := by
  obtain ⟨u, h1, h2⟩ := exec_ends i s
  rw [h] at h1
  cases next_inj h1
  exact h2

end Sys2Proof.Machine
end

