-- ==== Sys2Proof/Laws/PerInstr.lean ====
section
/-! SUPPORT. Facts about every command as syntax, one lemma per constructor: the fields of the CMD word that `encode`
writes are the command's OPCODE and RSVD (spec 30_encoding.md R70, R71). -/

namespace Sys2Proof.Laws.WordFields

/-- The OPCODE of a command (R71, R72). -/
def opcode : Instr → BitVec 4
  | .encode => 1
  | .decode => 2
  | .hexEnc => 3
  | .hexDec => 4
  | .illegal _ opcode => opcode

/-- The RSVD field of a command's word (R70). -/
def rsvd : Instr → BitVec 28
  | .illegal rsvd _ => rsvd
  | _ => 0

/-- The fields of a command's CMD word are its own. -/
def Statement (i : Instr) : Prop := opcodeField (encode i) = opcode i ∧ rsvdField (encode i) = rsvd i

theorem encode : Statement .encode := by unfold Statement; decide

theorem decode : Statement .decode := by unfold Statement; decide

theorem hexEnc : Statement .hexEnc := by unfold Statement; decide

theorem hexDec : Statement .hexDec := by unfold Statement; decide

theorem illegal (rsvd : BitVec 28) (opcode : BitVec 4) : Statement (.illegal rsvd opcode) := by
  constructor
  · apply BitVec.eq_of_getLsbD_eq
    intro i hi
    simp only [opcodeField, Sys2Proof.encode, BitVec.getLsbD_extractLsb', BitVec.getLsbD_append, WordFields.opcode]
    simp [hi]
  · apply BitVec.eq_of_getLsbD_eq
    intro i hi
    simp only [rsvdField, Sys2Proof.encode, BitVec.getLsbD_extractLsb', BitVec.getLsbD_append, WordFields.rsvd]
    simp [hi, show ¬ 4 + i < 4 by omega]

end Sys2Proof.Laws.WordFields
end

