-- ==== Sys2Proof/Tests/Slice0.lean ====
section
/-! SUPPORT. The model's own tests. Expected values are spec/95_test_vectors.md's, by the vector's name, or are read off a
numbered rule, and are never the model's own answer; and for every statement with hypotheses a theorem `witness_<name>`:
concrete values that meet them together, clause by clause and at the ends of their ranges. -/

namespace Sys2Proof.Tests

open Sys2Proof.Machine

/-! ### Helpers -/

/-- The `len` bytes of the big-endian number `n`: a byte string written out in hex digits. -/
def bytes : Nat → Nat → Bytes
  | 0, _ => []
  | len + 1, n => BitVec.ofNat 8 (n >>> (8 * len)) :: bytes len n

/-- After reset with the parameters `c`, the host having given the input `text` (SETIN, 30_encoding.md R75). -/
def given (c : Config) (text : Bytes) : State :=
  { State.resetWith c with inBuf := Memory.ofBytes 0 text, inLen := BitVec.ofNat 32 text.length }

/-- What the host reads when a command is over: STATUS, OUT_LEN and OUT_BUF[0..OUT_LEN). -/
def results : Outcome State Fault Refusal → Option (Word × Nat × List (Option Byte))
  | .next t => some (statusWord t.status, t.outLen.toNat, (List.range t.outLen.toNat).map t.outBuf.read)
  | .fault _ => none
  | .refused _ => none

/-- One step with the command word `w` accepted on the state `s`. -/
def runWord (s : State) (w : Nat) : Option (Word × Nat × List (Option Byte)) := results (step (s.withFetchWord 32 w))

/-- The result of a success: `n` bytes, those of the number `v`. -/
def success (status : Word) (n v : Nat) : Option (Word × Nat × List (Option Byte)) := some (status, n, (bytes n v).map some)

/-- The result of a failure, or of an ABSENT result. -/
def noResult (status : Word) : Option (Word × Nat × List (Option Byte)) := some (status, 0, [])

/-- The 15-byte KEY of V-CMD-32 and V-CMD-33. -/
def shortKey : Config := { Config.default with key := List.replicate 15 0x41 }

/-! ### Well-formed terms -/

theorem test_wf_refuses_illegal_with_the_fields_of_ENCODE : Instr.wf (.illegal 0 1) = false := by decide
theorem test_wf_refuses_illegal_with_the_fields_of_DECODE : Instr.wf (.illegal 0 2) = false := by decide
theorem test_wf_refuses_illegal_with_the_fields_of_HEX_ENC : Instr.wf (.illegal 0 3) = false := by decide
theorem test_wf_refuses_illegal_with_the_fields_of_HEX_DEC : Instr.wf (.illegal 0 4) = false := by decide
theorem test_wf_accepts_every_illegal_word_beside_them :
    Instr.wf (.illegal 0 0) = true ∧ Instr.wf (.illegal 0 5) = true ∧ Instr.wf (.illegal 1 1) = true := by decide
theorem test_parameters_refuse_a_long_KEY : ¬ Config.wf { Config.default with key := List.replicate 256 0 } := by
  decide +kernel
theorem test_parameters_refuse_a_long_IV : ¬ Config.wf { Config.default with iv := List.replicate 256 0 } := by
  decide +kernel
theorem test_parameters_refuse_a_small_N_IN : ¬ Config.wf { Config.default with nIn := 15 } := by decide
theorem test_parameters_refuse_a_large_N_IN : ¬ Config.wf { Config.default with nIn := 0x7FF1 } := by decide
theorem test_parameters_refuse_a_misplaced_BASE : ¬ Config.wf { Config.default with base := 0x20000 } := by decide
theorem test_parameters_accept_a_bad_KEY_length : Config.wf shortKey ∧ Config.wf Config.default := by decide

/-! ### Decoding, from words written out bit by bit (30_encoding.md R70, R71: RSVD in 31:4, OPCODE in 3:0) -/

theorem test_decode_ENCODE : decodeWord 0b0000000000000000000000000000_0001 = .encode := by decide
theorem test_decode_DECODE : decodeWord 0b0000000000000000000000000000_0010 = .decode := by decide
theorem test_decode_HEX_ENC : decodeWord 0b0000000000000000000000000000_0011 = .hexEnc := by decide
theorem test_decode_HEX_DEC : decodeWord 0b0000000000000000000000000000_0100 = .hexDec := by decide
theorem test_decode_ILLEGAL : decodeWord 0b1000000000000000000000000000_0100 = .illegal 0x8000000 4 := by decide
theorem test_decode_bytes_least_significant_first : decodeBytes [0x04, 0x00, 0x00, 0x80] = .ok (.illegal 0x8000000 4) := by
  decide
theorem test_decode_bytes_rejects_another_length : decodeBytes [1, 0, 0] = .error (.wrongLength 3) := by decide
theorem test_decode_table_word : decodeTableWord 32 4 = some .hexDec := by decide

/-! ### The units (95_test_vectors.md 2.1 to 2.4) -/

/-- V-PAD-6, V-PAD-8. -/
theorem test_pad : pad (bytes 17 0x3031323334353637383961626364656667) = bytes 17 0x3031323334353637383961626364656667 ++ List.replicate 15 0x20 ∧ pad [] = List.replicate 16 0x20 := by
  decide

/-- Field and table checks of 2.2. -/
theorem test_field : gmul 0x57 0x83 = 0xc1 ∧ xtime 0x57 = 0xae ∧ xtime 0xae = 0x47 ∧ sbox 0x53 = 0xed ∧ sbox 0xff = 0x16 := by
  decide +kernel

/-- V-AES-4, round keys 2 and 14. -/
theorem test_round_keys :
    storeBlock (roundKey (keyExpansion defaultKey) 2) = bytes 16 0x108a612c29c3501e7df1605b48c55215 ∧
    storeBlock (roundKey (keyExpansion defaultKey) 14) = bytes 16 0x046fababd293b3bc791411ac7db053a5 := by decide +kernel

/-- V-AES-5, its last line. -/
theorem test_inverse_cipher :
    storeBlock (invCipher (keyExpansion defaultKey) 14 (loadBlock (bytes 16 0x287c49c6820feeb8282b4b16a150cba1))) =
      bytes 16 0x5850585f581317111918141018111118 := by decide +kernel

/-- V-CBC-3: two blocks. -/
theorem test_cbc_encrypt :
    cbcEnc defaultKey defaultIv (pad (bytes 16 0x30313233343536373839616263646566)) =
      bytes 32 0xb6bf4458defcd1d03f63c4620cda7ec4ff1a2a4331de67748ce7d6b26d108afa := by decide +kernel

/-- V-CBC-10: the flipped bit reaches the next block. -/
theorem test_cbc_decrypt :
    cbcDec defaultKey defaultIv (bytes 32 0xb7bf4458defcd1d03f63c4620cda7ec4ff1a2a4331de67748ce7d6b26d108afa) =
      bytes 32 0xded99e8ea72bbbee1c4c406ec9e5860d21202020202020202020202020202020 := by decide +kernel

/-- V-HEX-8 to V-HEX-10: "abc" and "abz" under both parameters, "-1", "0g". -/
theorem test_hex_decode :
    hexToBytes .reject (some (bytes 3 0x616263)) = .failOdd ∧ hexToBytes .truncate (some (bytes 3 0x61627a)) = .ok [0xab] ∧
    hexToBytes .reject (some (bytes 2 0x2d31)) = .failDigit ∧ hexToBytes .reject (some (bytes 2 0x3067)) = .failDigit := by
  decide

/-! ### The commands (95_test_vectors.md 2.5), one step each -/

/-- V-CMD-1. -/
theorem test_ENCODE_hello : runWord (given Config.default (bytes 5 0x68656c6c6f)) 1 =
    success 0x01000002 32 0x3238376334396336383230666565623832383262346231366131353063626131 := by decide +kernel

/-- V-CMD-37: the key is checked before the IV. -/
theorem test_ENCODE_key_before_iv : runWord (given { Config.default with key := [], iv := [] } [0x78]) 1 =
    noResult 0x0103020E := by decide +kernel

/-- V-CMD-9: uppercase digits. -/
theorem test_DECODE_uppercase :
    runWord (given Config.default (bytes 32 0x3238374334394336383230464545423832383242344231364131353043424131)) 2 =
      success 0x02000002 16 0x68656c6c6f2020202020202020202020 := by decide +kernel

/-- V-CMD-33: hex is checked before the key. -/
theorem test_DECODE_hex_before_key : runWord (given shortKey (bytes 2 0x7a7a)) 2 = noResult 0x0206030E := by decide +kernel

/-- V-CMD-18. -/
theorem test_HEX_ENC : runWord (given Config.default (bytes 4 0x000fa5ff)) 3 =
    success 0x03000002 8 0x3030306661356666 := by decide +kernel

/-- V-CMD-30: with IN_NULL = 1, IN_LEN is not read. -/
theorem test_HEX_ENC_null : runWord { State.reset with inLen := 4097, inNull := true } 3 = noResult 0x0300000A := by
  decide +kernel

/-- V-CMD-21: both cases of digits. -/
theorem test_HEX_DEC : runWord (given Config.default (bytes 4 0x30614666)) 4 = success 0x04000002 2 0x0aff := by
  decide +kernel

/-- V-CMD-24: the last character is not looked at. -/
theorem test_HEX_DEC_truncate : runWord (given { Config.default with oddHex := .truncate } (bytes 3 0x61627a)) 4 =
    success 0x04000002 1 0xab := by decide +kernel

/-- V-CMD-26. -/
theorem test_ILLEGAL_zero : runWord State.reset 0 = noResult 0x0009050E := by decide +kernel

/-- V-CMD-28: RSVD is not 0. -/
theorem test_ILLEGAL_rsvd : runWord State.reset 0x11 = noResult 0x0109050E := by decide +kernel

/-! ### The window (95_test_vectors.md 2.6) -/

/-- The value the host got last, in the state an access answers. -/
def lastRead : Outcome State Fault Refusal → Option Word
  | .next t => t.reads.head?.map ReadResponse.value
  | .fault _ => none
  | .refused _ => none

/-- V-BUS-1. -/
theorem test_write_little_endian :
    (writeData 0x10000 4 0x6c6c6568 State.reset).inBuf = [(0, 0x68), (1, 0x65), (2, 0x6c), (3, 0x6c)] := by decide +kernel

/-- A 16-bit view of the same bytes (R52). V-BUS-2 asks it at an odd offset, which R54 refuses: log 18. -/
theorem test_read_half_word : lastRead (memRead 0x10002 2 (given Config.default (bytes 4 0x68656c6d))) = some 0x6d6c := by
  decide +kernel

/-- V-BUS-3, V-BUS-4, and R54's alignment on V-BUS-2's access. -/
theorem test_bus_errors : memRead 0x004 1 State.reset = .fault .registerBusError ∧
    memWrite 0x10002 4 0 State.reset = .fault .windowBusError ∧
    memRead 0x10001 2 State.reset = .fault .windowBusError := ⟨rfl, rfl, rfl⟩

/-- V-BUS-5, V-BUS-6 and V-BUS-8. -/
theorem test_reads_as_zero : lastRead (memRead 0x00100 4 State.reset) = some 0 ∧
    lastRead (memRead 0x11000 4 State.reset) = some 0 ∧ lastRead (memRead 0x000 4 State.reset) = some 0 := by decide +kernel

/-- V-BUS-9. -/
theorem test_IN_CTRL_keeps_one_bit :
    lastRead (memRead 0x00C 4 (writeData 0x00C 4 0xFFFFFFFF State.reset)) = some 1 := by decide +kernel

/-- STATUS during ENCODE reads 0x01000001 (2.5, last paragraph; R236). -/
theorem test_status_while_busy : lastRead (memRead 0x004 4 (accept 1 State.reset)) = some 0x01000001 := by decide +kernel

/-! ### Witnesses of the statements' hypotheses -/

/-- A command in flight: the word `w` accepted on `s`, `wait` host events before its completion, `ops` still to come. -/
def inFlight (s : State) (w : Word) (wait : Nat) (ops : List HostOp) : State :=
  { accept w s with coreWait := wait, hostOps := ops }

/-- A completed command, on the state the input "hi" was given to. -/
def hiState : State := given Config.default [0x68, 0x69]

theorem witness_DecodingFollowsTheOpcodeMap :
    (5 : Word) ≠ 0x00000001 ∧ (5 : Word) ≠ 0x00000002 ∧ (5 : Word) ≠ 0x00000003 ∧ (5 : Word) ≠ 0x00000004 := by decide

theorem witness_EncodedCommandsDecodeBack :
    Instr.wf .encode = true ∧ Instr.wf .decode = true ∧ Instr.wf .hexEnc = true ∧ Instr.wf .hexDec = true ∧
    Instr.wf (.illegal 0 0) = true ∧ Instr.wf (.illegal 0xFFFFFFF 0xF) = true := by decide

theorem witness_StepRunsThePendingCommand :
    (let s := inFlight hiState 3 0 [.poll]; s.seq = .busy ∧ s.resetAsserted = false ∧ s.coreWait = 0) ∧
    (let s := inFlight hiState 3 7 []; s.seq = .busy ∧ s.resetAsserted = false ∧ s.hostOps = []) := by decide

theorem witness_HostEventsTakeTheirTurn :
    (let s := { State.reset with hostOps := [.poll] }; s.hostOps = .poll :: [] ∧ s.seq = .idle) ∧
    (let s := { inFlight hiState 3 0 [.poll] with resetAsserted := true };
      s.hostOps = .poll :: [] ∧ s.resetAsserted = true) ∧
    (let s := inFlight hiState 3 1 [.poll]; s.hostOps = .poll :: [] ∧ s.coreWait ≠ 0) ∧
    (State.reset.hostOps = [] ∧ State.reset.seq = .idle) ∧
    (let s := { State.reset with resetAsserted := true }; s.hostOps = [] ∧ s.resetAsserted = true) := by decide

theorem witness_CompletionComesWithinTheWait :
    (inFlight hiState 3 1 [.poll]).seq = .busy ∧ (inFlight hiState 3 1 [.poll]).status.busy = true ∧
    (inFlight hiState 3 1 [.poll]).resetAsserted = false ∧
    ∀ op ∈ (inFlight hiState 3 1 [.poll]).hostOps, ∀ level, op ≠ .reset level := by
  refine ⟨rfl, rfl, rfl, ?_⟩
  intro op h level
  rw [List.mem_singleton.1 h]
  simp

theorem witness_CommandRunsFromItsWrite :
    let s := { hiState with hostOps := [.write (hiState.cfg.base + 0x000) 4 0x00000003] }
    s.seq = .idle ∧ s.status.busy = false ∧ s.resetAsserted = false ∧
    s.hostOps = [.write (s.cfg.base + 0x000) 4 0x00000003] := by decide

theorem witness_ResetGivesTheSpecValues :
    Config.default.wf ∧ shortKey.wf ∧ Config.wf { Config.default with nIn := 16 } ∧
    Config.wf { Config.default with nIn := 0x7FF0 } ∧ 0 < Config.default.nIn ∧ 4095 < Config.default.nIn ∧
    8223 < Config.default.nOut := by decide

theorem witness_ResetMeetsTheInvariant : Config.wf { Config.default with key := [], iv := [], base := 0x40000 } := by decide

/-- The invariant holds of a state in the middle of a run, and its next step answers a next state. -/
theorem witness_EveryStepKeepsTheInvariant :
    (inFlight hiState 3 0 []).Inv ∧ ∃ t, step (inFlight hiState 3 0 []) = .next t := by
  refine ⟨?_, _, rfl⟩
  exact
    { cfg := by decide, key := rfl, iv := rfl, inWf := by decide, inRange := by decide, outWf := by decide,
      outRange := by decide, outLen := by decide, seq := by decide,
      status := { busy := by decide, ok := by decide, failed := by decide },
      lastOp := by decide, busyOut := by decide, nullOut := by decide, pairs := by decide }

theorem witness_ResetAbandonsTheCommand :
    (let s := inFlight hiState 3 1 [.reset true]; s.hostOps = .reset true :: [] ∧ s.coreWait ≠ 0) ∧
    (let s := { State.reset with hostOps := [.reset true] }; s.hostOps = .reset true :: [] ∧ s.seq = .idle) ∧
    (let s := { inFlight hiState 3 1 [] with resetAsserted := true }; s.resetAsserted = true ∧ s.hostOps = []) ∧
    (let s := { inFlight hiState 3 1 [.reset false] with resetAsserted := true };
      s.resetAsserted = true ∧ s.hostOps = .reset false :: []) := by decide

/-- A completion step, the assertion of reset, and its deassertion. -/
theorem witness_NoStepChangesKeyOrIv :
    ((∃ t, step (inFlight hiState 3 0 []) = .next t) ∧ (inFlight hiState 3 0 []).resetAsserted = false) ∧
    (let s := { State.reset with hostOps := [.reset true] }; (∃ t, step s = .next t) ∧ s.resetAsserted = false) ∧
    (let s := { inFlight hiState 3 1 [.reset false] with resetAsserted := true };
      (∃ t, step s = .next t) ∧ s.resetAsserted = true ∧ s.hostOps = .reset false :: []) :=
  ⟨⟨⟨_, rfl⟩, rfl⟩, ⟨⟨_, rfl⟩, rfl⟩, ⟨⟨_, rfl⟩, rfl, rfl⟩⟩

theorem witness_AccessesDuringResetHaveNoEffect :
    (let s := { State.reset with resetAsserted := true }; s.resetAsserted = true) ∧ 0 < 0x40000 ∧ 0x3FFFF < 0x40000 := by
  decide

theorem witness_CmdWriteIsAcceptedOrDropped :
    (State.reset.resetAsserted = false ∧ State.reset.status.busy = false) ∧
    ((inFlight hiState 3 1 []).resetAsserted = false ∧ (inFlight hiState 3 1 []).status.busy = true) := by decide

/-- Each target, the ends of the window, and each width. -/
theorem witness_InputWritesWhileBusyAreDropped :
    (inFlight hiState 3 1 []).resetAsserted = false ∧ (inFlight hiState 3 1 []).status.busy = true ∧
    legalAccess 0x008 4 ∧ legalAccess 0x00C 4 ∧ legalAccess 0x10000 4 ∧ legalAccess 0x10FFE 2 ∧ legalAccess 0x1FFFF 1 := by
  decide

theorem witness_InputWritesWhileIdleAreStored :
    State.reset.resetAsserted = false ∧ State.reset.status.busy = false ∧
    legalAccess (0x10000 + 0) 4 ∧ legalAccess (0x10000 + 4095) 1 ∧ legalAccess (0x10000 + 0xFFFE) 2 := by decide

theorem witness_ReadOnlyWritesAreIgnored :
    State.reset.resetAsserted = false ∧ legalAccess 0x004 4 ∧ legalAccess 0x010 4 ∧ legalAccess 0x20000 4 ∧
    legalAccess 0x2FFFF 1 := by decide

/-- The ends of both ranges; an aligned and a misaligned access. -/
theorem witness_ReservedOffsetsReadZeroIgnoreWrites :
    State.reset.resetAsserted = false ∧
    ((0x00014 ≤ 0x14 ∧ 0x14 < 0x10000) ∧ 0x14 % 4 = 0) ∧ ((0x00014 ≤ 0xFFFF ∧ 0xFFFF < 0x10000) ∧ 0xFFFF % 1 = 0) ∧
    ((0x30000 ≤ 0x30000 ∧ 0x30000 < 0x40000) ∧ 0x30000 % 2 = 0) ∧
    ((0x30000 ≤ 0x3FFFF ∧ 0x3FFFF < 0x40000) ∧ 0x3FFFF % 2 ≠ 0) := by decide

theorem witness_OffsetsBeyondCapacityReadZeroIgnoreWrites :
    State.reset.resetAsserted = false ∧ State.reset.status.busy = false ∧ (inFlight hiState 3 1 []).status.busy = true ∧
    (0x10000 + State.reset.cfg.nIn ≤ 0x11000 ∧ legalAccess 0x11000 4) ∧
    (0x10000 + State.reset.cfg.nIn ≤ 0x1FFFF ∧ legalAccess 0x1FFFF 1) ∧
    (0x20000 + State.reset.cfg.nOut ≤ 0x22020 ∧ legalAccess 0x22020 4) ∧
    (0x20000 + State.reset.cfg.nOut ≤ 0x2FFFE ∧ legalAccess 0x2FFFE 2) := by decide

theorem witness_RegisterAccessesAreAlignedWords :
    State.reset.resetAsserted = false ∧ (0x10 < 0x14 ∧ (4 = 4 ∧ 0x10 % 4 = 0)) ∧ (0x00 < 0x14 ∧ ¬ (1 = 4 ∧ 0x00 % 4 = 0)) ∧
    (0x13 < 0x14 ∧ ¬ (4 = 4 ∧ 0x13 % 4 = 0)) := by decide

theorem witness_WindowAccessesAreNaturallyAligned :
    State.reset.resetAsserted = false ∧ ((4 = 1 ∨ 4 = 2 ∨ 4 = 4) ∧ 0x14 % 4 = 0) ∧
    ((1 = 1 ∨ 1 = 2 ∨ 1 = 4) ∧ 0x3FFFF % 1 = 0) ∧ ¬ ((8 = 1 ∨ 8 = 2 ∨ 8 = 4) ∧ 0x20000 % 8 = 0) ∧
    ¬ ((4 = 1 ∨ 4 = 2 ∨ 4 = 4) ∧ 0x10002 % 4 = 0) ∧
    State.reset.cfg.base + 0x40000 ≤ 0x40000 ∧ 0x3FFFF < Config.base { Config.default with base := 0x40000 } := by decide

theorem witness_ReadsReturnTheStorageBytes :
    State.reset.resetAsserted = false ∧ legalAccess 0x000 4 ∧ legalAccess 0x010 4 ∧ legalAccess 0x10FFF 1 ∧
    legalAccess 0x20000 2 ∧ legalAccess 0x3FFFC 4 := by decide

theorem witness_WindowHoldsRegistersAndBuffers :
    State.reset.cfg.wf ∧ 0 < State.reset.cfg.nIn ∧ 4095 < State.reset.cfg.nIn ∧ 8223 < State.reset.cfg.nOut := by decide

theorem witness_BusAccessesDoNotTouchTheSecrets :
    (∀ level, HostOp.write 0x008 4 5 ≠ .reset level) ∧ ∃ t, hostEvent (.write 0x008 4 5) State.reset = .next t :=
  ⟨fun _ => by simp, _, rfl⟩

theorem witness_PollGoesOnWhileBusy : State.reset.resetAsserted = false ∧ (inFlight hiState 3 1 []).resetAsserted = false := by
  decide

theorem witness_PadIsOneToSixteenSpaces : ([0x41] : Bytes).length ≤ 16 := by decide

theorem witness_BytesToHexWritesTwoDigitsAByte : 0 < ([0x00, 0xff] : Bytes).length ∧ 1 < ([0x00, 0xff] : Bytes).length := by
  decide

/-- "1"; "abc" under both parameters; "zz"; "0aFf". -/
theorem witness_HexToBytesChecksInOrder :
    ([0x31] : Bytes).length < 2 ∧
    (2 ≤ (bytes 3 0x616263).length ∧ (bytes 3 0x616263).length % 2 = 1 ∧ OddHex.reject = .reject) ∧
    (2 ≤ (bytes 2 0x7a7a).length ∧ (bytes 2 0x7a7a).length % 2 = 0 ∧ hexVal ((bytes 2 0x7a7a).getD (2 * 0) 0) = none) ∧
    (2 ≤ (bytes 4 0x30614666).length ∧ (bytes 4 0x30614666).length % 2 = 0 ∧
      ∀ i, i < (bytes 4 0x30614666).length / 2 →
        hexVal ((bytes 4 0x30614666).getD (2 * i) 0) ≠ none ∧ hexVal ((bytes 4 0x30614666).getD (2 * i + 1) 0) ≠ none) := by
  decide

theorem witness_HexRoundTrips :
    1 ≤ ([0x5a] : Bytes).length ∧ 2 ≤ (bytes 4 0x30614666).length ∧ (bytes 4 0x30614666).length % 2 = 0 ∧
    ∀ c ∈ bytes 4 0x30614666, hexVal c ≠ none := by decide

theorem witness_ShiftRowsMovesRowRByR : 0 < 4 ∧ 3 < 4 := by decide

theorem witness_KeyExpansionFollowsItsRecurrence :
    keyLenValid (List.replicate 16 0) = true ∧ keyLenValid (List.replicate 24 0) = true ∧ keyLenValid defaultKey = true := by
  decide

theorem witness_CbcChainsBlockByBlock : (bytes 32 0).length % 16 = 0 ∧ 1 < (bytes 32 0).length / 16 := by decide

theorem witness_CbcDecryptionUndoesEncryption :
    defaultKey.length = 32 ∧ defaultIv.length = 16 ∧ (bytes 32 0).length % 16 = 0 := by decide

/-- Inputs of 1 and of N_IN bytes, with N_IN = 16. -/
theorem witness_EncodeCompletes :
    ((given Config.default [0x41]).input = some [0x41] ∧ 1 ≤ (given Config.default [0x41]).cfg.nIn ∧
      (given Config.default [0x41]).cfg.wf ∧ (given Config.default [0x41]).key.length = 32 ∧
      (given Config.default [0x41]).iv.length = 16) ∧
    (let c := { Config.default with nIn := 16, key := List.replicate 24 0 };
      (given c (bytes 16 0x41)).input = some (bytes 16 0x41) ∧ (bytes 16 0x41).length ≤ c.nIn ∧ c.wf) := by decide

theorem witness_EncodeErrorsComeInOrder :
    { State.reset with inNull := true }.inNull = true ∧ (State.reset.inNull = false ∧ State.reset.inLen = 0) ∧
    ((given shortKey [0x41]).input = some [0x41] ∧ ¬ ((given shortKey [0x41]).key.length = 16 ∨
      (given shortKey [0x41]).key.length = 24 ∨ (given shortKey [0x41]).key.length = 32)) ∧
    (let c := { Config.default with iv := [] }; (given c [0x41]).input = some [0x41] ∧ (given c [0x41]).key.length = 32 ∧
      (given c [0x41]).iv.length ≠ 16) := by decide

/-- 32 digits, and one character with SHORT_DECODE = EMPTY. -/
theorem witness_DecodeCompletes :
    (let t := List.replicate 32 (0x30 : Byte);
      (given Config.default t).input = some t ∧ t.length ≤ 4096 ∧ hexToBytes .reject (some t) = .ok (List.replicate 16 0) ∧
      (List.replicate 16 (0 : Byte)).length % 16 = 0) ∧
    (let c := { Config.default with shortDecode := .empty };
      (given c [0x31]).input = some [0x31] ∧ c.shortDecode = .empty ∧ c.wf) := by decide +kernel

theorem witness_DecodeErrorsComeInOrder :
    ((given Config.default (bytes 3 0x616263)).input = some (bytes 3 0x616263) ∧
      hexToBytes .reject (some (bytes 3 0x616263)) = .failOdd) ∧
    ((given Config.default (bytes 2 0x7a7a)).input = some (bytes 2 0x7a7a) ∧
      hexToBytes .reject (some (bytes 2 0x7a7a)) = .failDigit) ∧
    ((given shortKey (bytes 2 0x3030)).input = some (bytes 2 0x3030) ∧
      hexToBytes .reject (some (bytes 2 0x3030)) = .ok [0] ∧ shortKey.key.length = 15) ∧
    (let c := { Config.default with iv := [] }; (given c (bytes 2 0x3030)).input = some (bytes 2 0x3030) ∧
      c.key.length = 32 ∧ c.iv.length ≠ 16) ∧
    ((given Config.default [0x31]).input = some [0x31] ∧ Config.default.shortDecode = .error ∧
      hexToBytes .reject (some [0x31]) = .absent) ∧
    ((given Config.default (bytes 2 0x3030)).input = some (bytes 2 0x3030) ∧ ([0] : Bytes).length % 16 ≠ 0) := by decide

/-- No byte, N_IN bytes with N_IN = 16, ABSENT, and IN_LEN = N_IN + 1. -/
theorem witness_HexEncCompletes :
    State.reset.input = some [] ∧
    (let c := { Config.default with nIn := 16 }; (given c (bytes 16 7)).input = some (bytes 16 7) ∧
      (bytes 16 7).length ≤ c.nIn ∧ c.wf) ∧
    { State.reset with inNull := true }.inNull = true ∧
    (let s := { State.reset with inLen := 4097 }; s.inNull = false ∧ s.cfg.nIn < s.inLen.toNat) := by decide

theorem witness_HexDecCompletes :
    (given Config.default (bytes 4 0x30614666)).cfg.wf ∧
    ((given Config.default (bytes 4 0x30614666)).input = some (bytes 4 0x30614666) ∧
      hexToBytes .reject (some (bytes 4 0x30614666)) = .ok [0x0a, 0xff]) ∧
    ((given Config.default [0x31]).input = some [0x31] ∧ ([0x31] : Bytes).length < 2) ∧
    hexToBytes .reject (some (bytes 3 0x616263)) = .failOdd ∧ hexToBytes .reject (some (bytes 2 0x2d31)) = .failDigit ∧
    { State.reset with inNull := true }.inNull = true ∧
    (let s := { State.reset with inLen := 4097 }; s.inNull = false ∧ s.cfg.nIn < s.inLen.toNat) := by decide

theorem witness_IllegalWordCompletesWithItsError :
    (0x00000011 : Word) ≠ 0x00000001 ∧ (0x00000011 : Word) ≠ 0x00000002 ∧ (0x00000011 : Word) ≠ 0x00000003 ∧
    (0x00000011 : Word) ≠ 0x00000004 := by decide

theorem witness_LengthOutOfRangeFails :
    (let s := { State.reset with inLen := 4097 }; s.inNull = false ∧ s.cfg.nIn < s.inLen.toNat) ∧
    (let s := { State.reset with inNull := true }; s.inNull = true ∧ ∃ t, exec .decode s = .next t) :=
  ⟨by decide, rfl, _, rfl⟩

/-- A success, an ABSENT result and a failure. -/
theorem witness_EveryCommandEndsInACompletion :
    hiState.cfg.wf ∧ (∃ t, exec .hexEnc hiState = .next t ∧ t.status.err = false) ∧
    (∃ t, exec .hexDec State.reset = .next t ∧ t.status.outNull = true) ∧
    (∃ t, exec (.illegal 0 0) hiState = .next t ∧ t.status.err = true) :=
  ⟨by decide, ⟨_, rfl, rfl⟩, ⟨_, rfl, rfl⟩, ⟨_, rfl, rfl⟩⟩

theorem witness_CommandsLeaveTheRestUnchanged : ∃ t, exec .hexEnc hiState = .next t := ⟨_, rfl⟩

theorem witness_OutBufHoldsTheResult : hiState.cfg.wf ∧ 0 < hiState.cfg.nOut ∧ 8223 < hiState.cfg.nOut := by decide

theorem witness_OnlyTheListedErrorPairsOccur : ∃ t, exec .encode State.reset = .next t ∧ t.status.err = true :=
  ⟨_, rfl, rfl⟩

theorem witness_HexCommandsIgnoreTheSecrets :
    Instr.hexDec ≠ .encode ∧ Instr.hexDec ≠ .decode ∧ ∃ t, exec .hexDec hiState = .next t := ⟨by decide, by decide, _, rfl⟩

theorem witness_NoEngineStateCarriesOver : ∃ t, exec .encode State.reset = .next t := ⟨_, rfl⟩

/-- ENCODE of "A", and the state in which its OUT_BUF was written back to IN_BUF. -/
theorem witness_DecodeUndoesEncode :
    ∃ t, exec .encode (given Config.default [0x41]) = .next t ∧ t.outLen.toNat = 32 ∧
      (let u := { t with inBuf := t.outBuf, inLen := t.outLen };
        u.cfg.wf ∧ u.key = defaultKey ∧ u.iv = defaultIv ∧ u.inNull = false ∧ u.inLen.toNat ≤ u.cfg.nIn ∧
        ∀ i < t.outLen.toNat, u.inBuf.read i = t.outBuf.read i) := by
  refine ⟨_, rfl, ?_, ?_, rfl, rfl, rfl, ?_, fun _ _ => rfl⟩ <;> decide +kernel

end Sys2Proof.Tests
end

/-! PROOFS. The bus window's accesses (spec 20_memory.md R53, R55 to R57): which ones get a bus error, what the
storage reads as outside the registers and the buffers, what a write there does; then the statements they settle. -/

namespace Sys2Proof.Machine

/-! ### Which accesses are legal, and the bus error of the others -/

theorem legalAccess_register {off n : Nat} (hlt : off < 0x14) : legalAccess off n ↔ n = 4 ∧ off % 4 = 0 := by
  rw [legalAccess, if_pos hlt]

theorem legalAccess_window {off n : Nat} (hge : 0x14 ≤ off) :
    legalAccess off n ↔ off < 0x40000 ∧ (n = 1 ∨ n = 2 ∨ n = 4) ∧ off % n = 0 := by
  rw [legalAccess, if_neg (by omega)]

/-- An illegal register access gets R53's bus error. -/
theorem accessFault_register {off n : Nat} (hlt : off < 0x14) (hill : ¬ (n = 4 ∧ off % 4 = 0)) :
    accessFault off n = some .registerBusError := by
  rw [accessFault, if_pos (region_register hlt), if_neg hill]

/-- An illegal access beyond the registers gets the bus error of R54 and R55. -/
theorem accessFault_window {off n : Nat} (hge : 0x14 ≤ off) (hill : ¬ ((n = 1 ∨ n = 2 ∨ n = 4) ∧ off % n = 0)) :
    accessFault off n = some .windowBusError := by
  rw [accessFault, if_neg (region_ne_register hge), if_neg hill]

/-- A legal access beyond the registers that starts below a multiple of 4 ends below it: alignment lets none cross. -/
theorem legalAccess_add_lt {off n k bound : Nat} (hge : 0x14 ≤ off) (hlegal : legalAccess off n) (hk : k < n)
    (hlt : off < bound) (hbound : bound % 4 = 0) : off + k < bound := by
  obtain ⟨-, rfl | rfl | rfl, halign⟩ := (legalAccess_window hge).1 hlegal <;> omega

/-! ### Offsets that read as zero -/

theorem peek_reserved (s : State) {off : Nat} (h : (0x14 ≤ off ∧ off < 0x10000) ∨ 0x30000 ≤ off) :
    s.peek off = some 0 := by
  rw [State.peek, region_reserved h]

theorem peek_inTail {s : State} {off : Nat} (hge : 0x10000 + s.cfg.nIn ≤ off) (hlt : off < 0x20000) :
    s.peek off = some 0 := by
  have hbeyond : ¬ off - inBufBase < s.cfg.nIn := by unfold inBufBase; omega
  simp only [State.peek, region_inWindow (show 0x10000 ≤ off by omega) hlt, if_neg hbeyond]

theorem peek_outTail {s : State} {off : Nat} (hge : 0x20000 + s.cfg.nOut ≤ off) (hlt : off < 0x30000) :
    s.peek off = some 0 := by
  have hbeyond : ¬ off - outBufBase < s.cfg.nOut := by unfold outBufBase; omega
  simp only [State.peek, region_outWindow (show 0x20000 ≤ off by omega) hlt, if_neg hbeyond]

/-- A legal read of zero bytes hands the host 0 and changes only the model's record of reads and draws. -/
theorem hostRead_zero {s : State} {off n : Nat} (hr : s.resetAsserted = false) (hlegal : legalAccess off n)
    (hzero : ∀ k < n, s.peek (off + k) = some 0) :
    ∃ t, hostEvent (.read (s.cfg.base + off) n) s = .next t ∧
      t = { s with reads := ⟨s.cfg.base + off, n, 0⟩ :: s.reads, draws := t.draws } := by
  refine ⟨respond (s.cfg.base + off) n 0 s, ?_, rfl⟩
  rw [hostRead_legal hr hlegal, readData_zero hr hzero]

/-! ### Ignored and dropped writes -/

theorem writeData_status (n : Nat) (v : Word) (s : State) : writeData 0x004 n v s = s := rfl

theorem writeData_outLen (n : Nat) (v : Word) (s : State) : writeData 0x010 n v s = s := rfl

theorem writeData_outWindow {off : Nat} (hge : 0x20000 ≤ off) (hlt : off < 0x30000) (n : Nat) (v : Word)
    (s : State) : writeData off n v s = s := by
  rw [writeData, region_outWindow hge hlt]

theorem writeData_reserved {off : Nat} (h : (0x14 ≤ off ∧ off < 0x10000) ∨ 0x30000 ≤ off) (n : Nat) (v : Word)
    (s : State) : writeData off n v s = s := by
  rw [writeData, region_reserved h]

/-- R237: a write anywhere in the IN_BUF window, its tail included, is dropped while BUSY = 1. -/
theorem writeData_inWindow_busy {s : State} {off : Nat} (hge : 0x10000 ≤ off) (hlt : off < 0x20000)
    (hbusy : s.status.busy = true) (n : Nat) (v : Word) : writeData off n v s = dropWrite s := by
  simp only [writeData, region_inWindow hge hlt, inputWrite, if_pos hbusy]

/-- R56: while BUSY = 0 a write to the tail of the IN_BUF window stores no byte. -/
theorem writeData_inTail_idle {s : State} {off : Nat} (hge : 0x10000 + s.cfg.nIn ≤ off) (hlt : off < 0x20000)
    (hidle : s.status.busy = false) (n : Nat) (v : Word) : writeData off n v s = s := by
  have hbeyond : s.cfg.nIn ≤ off - inBufBase := by unfold inBufBase; omega
  simp [writeData, region_inWindow (show 0x10000 ≤ off by omega) hlt, inputWrite, hidle, storeIn_beyond _ _ hbeyond]

/-! ### The statements -/

/-- Settles O19: the region of each of the three targets has no arm in `writeData` that changes the state. -/
theorem readOnlyWritesAreIgnored : Obligations.ReadOnlyWritesAreIgnored := by
  intro s off n v hr hoff hlegal
  rw [hostWrite_legal hr hlegal]
  obtain rfl | rfl | ⟨hge, hlt⟩ := hoff
  · rw [writeData_status]
  · rw [writeData_outLen]
  · rw [writeData_outWindow hge hlt]

/-- Settles O20: an aligned access is legal and none of its bytes leaves the reserved range; a misaligned one fails the
access check. -/
theorem reservedOffsetsReadZeroIgnoreWrites : Obligations.ReservedOffsetsReadZeroIgnoreWrites := by
  intro s off n v hr hoff hn
  have hge : 0x14 ≤ off := by omega
  have hwin : off < 0x40000 := by omega
  constructor
  · intro halign
    have hlegal : legalAccess off n := (legalAccess_window hge).2 ⟨hwin, hn, halign⟩
    have hzero : ∀ k < n, s.peek (off + k) = some 0 := by
      intro k hk
      apply peek_reserved
      obtain ⟨-, hlt⟩ | ⟨hge', -⟩ := hoff
      · exact .inl ⟨by omega, legalAccess_add_lt hge hlegal hk hlt rfl⟩
      · exact .inr (by omega)
    refine ⟨hostRead_zero hr hlegal hzero, ?_⟩
    rw [hostWrite_legal hr hlegal, writeData_reserved (by omega)]
  · intro hmis
    have hfault : accessFault off n = some .windowBusError := accessFault_window hge fun h => hmis h.2
    exact ⟨hostRead_fault hr hwin hfault, hostWrite_fault hr hwin hfault⟩

/-- Settles O21: no byte of a legal access that starts in a tail leaves it, and a store from N_IN on stores nothing. -/
theorem offsetsBeyondCapacityReadZeroIgnoreWrites : Obligations.OffsetsBeyondCapacityReadZeroIgnoreWrites := by
  intro s off n v hr hoff hlegal
  have hge : 0x14 ≤ off := by omega
  have hzero : ∀ k < n, s.peek (off + k) = some 0 := by
    intro k hk
    obtain ⟨hcap, hlt⟩ | ⟨hcap, hlt⟩ := hoff
    · exact peek_inTail (by omega) (legalAccess_add_lt hge hlegal hk hlt rfl)
    · exact peek_outTail (by omega) (legalAccess_add_lt hge hlegal hk hlt rfl)
  rw [hostWrite_legal hr hlegal]
  refine ⟨hostRead_zero hr hlegal hzero, fun hidle => ?_, fun hlt hbusy => ?_⟩
  · obtain ⟨hcap, hlt⟩ | ⟨hcap, hlt⟩ := hoff
    · rw [writeData_inTail_idle hcap hlt (hidle hlt)]
    · rw [writeData_outWindow (by omega) hlt]
  · rw [writeData_inWindow_busy (by omega) hlt hbusy]
    rfl

/-- Settles O22: an aligned 32-bit access passes the access check, any other fails it. -/
theorem registerAccessesAreAlignedWords : Obligations.RegisterAccessesAreAlignedWords := by
  intro s off n v hr hlt
  constructor
  · intro haligned
    have hlegal : legalAccess off n := (legalAccess_register hlt).2 haligned
    exact ⟨⟨_, hostRead_legal hr hlegal⟩, ⟨_, hostWrite_legal hr hlegal⟩⟩
  · intro hill
    have hwin : off < 0x40000 := by omega
    have hfault : accessFault off n = some .registerBusError := accessFault_register hlt hill
    exact ⟨hostRead_fault hr hwin hfault, hostWrite_fault hr hwin hfault⟩

end Sys2Proof.Machine

/-! PROOFS. The decoder on words (spec 30_encoding.md R70 to R74): a word is its two fields, the encoder inverts the
decoder on every word, and so each command is decoded from at most one word; then the statement they settle. -/

namespace Sys2Proof

/-- A word is its fields RSVD and OPCODE, side by side (R70). -/
theorem rsvdField_append_opcodeField (w : Word) : rsvdField w ++ opcodeField w = w := by
  calc rsvdField w ++ opcodeField w = w.extractLsb' 0 32 := BitVec.extractLsb'_append_extractLsb'_eq_extractLsb' rfl
    _ = w := BitVec.extractLsb'_eq_self

/-- The last sentence of R72: decoding loses nothing of the word. -/
theorem encode_decodeWord (w : Word) : encode (decodeWord w) = w := by
  have hw := rsvdField_append_opcodeField w
  by_cases hr : rsvdField w = 0
  · have hlegal : ∀ k : BitVec 4, opcodeField w = k → (0 : BitVec 28) ++ k = w := by
      rintro k rfl
      rwa [hr] at hw
    simp only [decodeWord, hr, ne_eq, not_true_eq_false, if_false]
    split_ifs with h1 h2 h3 h4
    · exact hlegal 1 h1
    · exact hlegal 2 h2
    · exact hlegal 3 h3
    · exact hlegal 4 h4
    · exact hlegal _ rfl
  · rw [decodeWord, if_pos hr]
    exact hw

/-- A command that its own word decodes to is decoded from no other word. -/
theorem decodeWord_eq_iff {i : Instr} (hi : decodeWord (encode i) = i) (w : Word) :
    decodeWord w = i ↔ w = encode i := by
  constructor
  · rintro rfl
    exact (encode_decodeWord w).symm
  · rintro rfl
    exact hi

/-- An ILLEGAL that the decoder gives carries the fields of its word (R74). -/
theorem decodeWord_eq_illegal {w : Word} {rsvd : BitVec 28} {opcode : BitVec 4}
    (h : decodeWord w = .illegal rsvd opcode) : rsvd = rsvdField w ∧ opcode = opcodeField w := by
  obtain ⟨hopcode, hrsvd⟩ := Laws.WordFields.illegal rsvd opcode
  have hw : encode (.illegal rsvd opcode) = w := h ▸ encode_decodeWord w
  rw [hw] at hopcode hrsvd
  exact ⟨hrsvd.symm, hopcode.symm⟩

/-- Settles O1: each legal word decodes to its command, and by `decodeWord_eq_iff` it is that command's only word; so
any other word decodes to an ILLEGAL, with the word's own fields. -/
theorem decodingFollowsTheOpcodeMap : Obligations.DecodingFollowsTheOpcodeMap := by
  intro w
  have hencode : decodeWord w = .encode ↔ w = 0x00000001 := decodeWord_eq_iff (by decide) w
  have hdecode : decodeWord w = .decode ↔ w = 0x00000002 := decodeWord_eq_iff (by decide) w
  have hhexEnc : decodeWord w = .hexEnc ↔ w = 0x00000003 := decodeWord_eq_iff (by decide) w
  have hhexDec : decodeWord w = .hexDec ↔ w = 0x00000004 := decodeWord_eq_iff (by decide) w
  refine ⟨hencode, hdecode, hhexEnc, hhexDec, fun h1 h2 h3 h4 => ?_⟩
  cases h : decodeWord w with
  | encode => exact absurd (hencode.1 h) h1
  | decode => exact absurd (hdecode.1 h) h2
  | hexEnc => exact absurd (hhexEnc.1 h) h3
  | hexDec => exact absurd (hhexDec.1 h) h4
  | illegal rsvd opcode =>
    obtain ⟨rfl, rfl⟩ := decodeWord_eq_illegal h
    rfl

end Sys2Proof

/-! PROOFS. The padding unit (spec 40_padding.md R100 to R102): the range of the pad length, and the padded string's
beginning and length bound; then the statement they settle. -/

namespace Sys2Proof.Machine

/-- The range of the pad length (R100): the remainder modulo 16 is at most 15. -/
theorem padLen_mem_one_to_sixteen (l : Nat) : 1 ≤ padLen l ∧ padLen l ≤ 16 := by
  have hmod : l % 16 < 16 := Nat.mod_lt l (by decide)
  unfold padLen
  omega

/-- A whole number of blocks, and nothing else, gets a full block of padding (R100). -/
theorem padLen_eq_sixteen_iff (l : Nat) : padLen l = 16 ↔ l % 16 = 0 := by
  unfold padLen
  omega

theorem take_length_pad (t : Bytes) : (pad t).take t.length = t := List.take_left

/-- What padding adds is the pad length. -/
theorem pad_length_sub (t : Bytes) : (pad t).length - t.length = padLen t.length := by
  rw [pad, List.length_append, List.length_replicate, Nat.add_sub_cancel_left]

/-- The padded length is monotone in the text's length, so `nIn` bounds it (R102). -/
theorem pad_length_le {t : Bytes} {nIn : Nat} (h : t.length ≤ nIn) : (pad t).length ≤ 16 * (nIn / 16 + 1) := by
  rw [pad_length]
  have hblocks : t.length / 16 ≤ nIn / 16 := Nat.div_le_div_right h
  omega

/-- Settles O29: the pad length's range bounds what `pad` adds; `pad_length` counts the result in whole blocks. -/
theorem padIsOneToSixteenSpaces : Obligations.PadIsOneToSixteenSpaces := by
  refine ⟨fun l => ?_, fun t => ?_⟩
  · obtain ⟨hpos, hle⟩ := padLen_mem_one_to_sixteen l
    exact ⟨rfl, hpos, hle, padLen_eq_sixteen_iff l⟩
  · obtain ⟨hpos, hle⟩ := padLen_mem_one_to_sixteen t.length
    have hlen : (pad t).length = 16 * (t.length / 16 + 1) := pad_length t
    have hmult : (pad t).length % 16 = 0 := by rw [hlen, Nat.mul_mod_right]
    have hblock : 16 ≤ (pad t).length := by omega
    rw [← pad_length_sub] at hpos hle
    exact ⟨rfl, hlen, hmult, hblock, hpos, hle, take_length_pad t, fun nIn h => ⟨pad_length_le h, by omega⟩⟩

end Sys2Proof.Machine

/-! PROOFS. The cipher core's inverses (spec 41_aes_cbc.md R114 to R122, R130): each inverse transformation undoes its
own, so InvCipher undoes Cipher and CBC decryption undoes CBC encryption; ShiftRows by row and column (R117); then the
statements they settle. -/

namespace Sys2Proof.Machine

/-! ### ShiftRows by row and column -/

/-- Entry (r, c) of ShiftRows (R117), byte r + 4*c of the block (R115): one equation for each of the 16 entries. -/
theorem storeBlock_shiftRows_getElem? (s : Block) {r c : Nat} (hr : r < 4) (hc : c < 4) :
    (storeBlock (shiftRows s))[r + 4 * c]? = (storeBlock s)[r + 4 * ((c + r) % 4)]? := by
  interval_cases r <;> interval_cases c <;> rfl

/-- Entry (r, c) of InvShiftRows (R117), as for ShiftRows. -/
theorem storeBlock_invShiftRows_getElem? (s : Block) {r c : Nat} (hr : r < 4) (hc : c < 4) :
    (storeBlock (invShiftRows s))[r + 4 * c]? = (storeBlock s)[r + 4 * ((c + 4 - r) % 4)]? := by
  interval_cases r <;> interval_cases c <;> rfl

/-- Settles O36: both rotations entry by entry; row 0 is ShiftRows' own clause at r = 0. -/
theorem shiftRowsMovesRowRByR : Obligations.ShiftRowsMovesRowRByR := by
  intro s r c hr hc
  have hrow0 : (storeBlock (shiftRows s))[4 * c]? = (storeBlock s)[4 * c]? := by
    simpa [Nat.mod_eq_of_lt hc] using storeBlock_shiftRows_getElem? s (r := 0) (by decide) hc
  exact ⟨storeBlock_shiftRows_getElem? s hr hc, storeBlock_invShiftRows_getElem? s hr hc, hrow0⟩

/-! ### Each inverse transformation undoes its own -/

/-- R114's table undoes R113's, entry by entry. -/
theorem invSbox_sbox : ∀ a : Byte, invSbox (sbox a) = a := by decide +kernel

theorem invSubBytes_subBytes (s : Block) : invSubBytes (subBytes s) = s := by
  simp [invSubBytes, subBytes, blockMap, quadMap, invSbox_sbox]

/-- One byte of MixColumns, from its column read from that byte's row on (R118). -/
def mixByte (a b c d : Byte) : Byte := gmul 2 a ^^^ gmul 3 b ^^^ c ^^^ d

/-- One byte of InvMixColumns, from its column read from that byte's row on (R118). -/
def invMixByte (a b c d : Byte) : Byte := gmul 14 a ^^^ gmul 11 b ^^^ gmul 13 c ^^^ gmul 9 d

theorem mixColumn_eq (q : Quad) :
    mixColumn q = ⟨mixByte q.b0 q.b1 q.b2 q.b3, mixByte q.b1 q.b2 q.b3 q.b0, mixByte q.b2 q.b3 q.b0 q.b1,
      mixByte q.b3 q.b0 q.b1 q.b2⟩ := rfl

theorem invMixColumn_eq (q : Quad) :
    invMixColumn q = ⟨invMixByte q.b0 q.b1 q.b2 q.b3, invMixByte q.b1 q.b2 q.b3 q.b0, invMixByte q.b2 q.b3 q.b0 q.b1,
      invMixByte q.b3 q.b0 q.b1 q.b2⟩ := rfl

/-- InvMixColumns' row is linear, because gmul is. -/
theorem invMixByte_xor (a b c d a' b' c' d' : Byte) :
    invMixByte (a ^^^ a') (b ^^^ b') (c ^^^ c') (d ^^^ d') = invMixByte a b c d ^^^ invMixByte a' b' c' d' := by
  simp only [invMixByte, gmul_xor]
  ac_rfl

/-- The product of the two matrices of R118 has 1 on its diagonal: 14*2 + 11*1 + 13*1 + 9*3 = 1. -/
theorem invMixByte_mix_own : ∀ a : Byte, invMixByte (gmul 2 a) a a (gmul 3 a) = a := by decide +kernel

/-- The product of the two matrices of R118 has 0 off its diagonal. -/
theorem invMixByte_mix_others :
    ∀ a : Byte, invMixByte (gmul 3 a) (gmul 2 a) a a = 0 ∧ invMixByte a (gmul 3 a) (gmul 2 a) a = 0 ∧
      invMixByte a a (gmul 3 a) (gmul 2 a) = 0 := by decide +kernel

/-- By linearity the row is the sum of what each byte of the column contributes, and only its own byte stays. -/
theorem invMixByte_mixByte (a b c d : Byte) :
    invMixByte (mixByte a b c d) (mixByte b c d a) (mixByte c d a b) (mixByte d a b c) = a := by
  have hsplit : invMixByte (mixByte a b c d) (mixByte b c d a) (mixByte c d a b) (mixByte d a b c) =
      invMixByte (gmul 2 a) a a (gmul 3 a) ^^^ invMixByte (gmul 3 b) (gmul 2 b) b b ^^^
        invMixByte c (gmul 3 c) (gmul 2 c) c ^^^ invMixByte d d (gmul 3 d) (gmul 2 d) := by
    simp only [← invMixByte_xor, mixByte]
    congr 1 <;> ac_rfl
  obtain ⟨hb, -, -⟩ := invMixByte_mix_others b
  obtain ⟨-, hc, -⟩ := invMixByte_mix_others c
  obtain ⟨-, -, hd⟩ := invMixByte_mix_others d
  rw [hsplit, invMixByte_mix_own, hb, hc, hd]
  simp

theorem invMixColumn_mixColumn (q : Quad) : invMixColumn (mixColumn q) = q := by
  simp only [mixColumn_eq, invMixColumn_eq, invMixByte_mixByte]

theorem invMixColumns_mixColumns (s : Block) : invMixColumns (mixColumns s) = s := by
  simp [invMixColumns, mixColumns, blockMap, invMixColumn_mixColumn]

/-! ### InvCipher undoes Cipher -/

theorem invSubBytes_invShiftRows_cancel (s : Block) : invSubBytes (invShiftRows (shiftRows (subBytes s))) = s := by
  rw [invShiftRows_shiftRows, invSubBytes_subBytes]

/-- An inner round of InvCipher takes what SubBytes and ShiftRows made of the State after a round of Cipher back to what
they made of the State before it. -/
theorem decRound_encRound (w : List Quad) (s : Block) (round : Nat) :
    decRound w (shiftRows (subBytes (encRound w s round))) round = shiftRows (subBytes s) := by
  rw [decRound, invSubBytes_invShiftRows_cancel, encRound, addRoundKey_cancel, invMixColumns_mixColumns]

theorem decRounds_encRounds (w : List Quad) (s : Block) (rounds : List Nat) :
    rounds.reverse.foldl (decRound w) (shiftRows (subBytes (rounds.foldl (encRound w) s))) =
      shiftRows (subBytes s) := by
  induction rounds generalizing s with
  | nil => rfl
  | cons round rounds ih =>
    simp only [List.reverse_cons, List.foldl_append, List.foldl_cons, List.foldl_nil]
    rw [ih, decRound_encRound]

/-- The last sentence of R122, whatever the schedule. -/
theorem invCipher_cipher (w : List Quad) (nr : Nat) (p : Block) : invCipher w nr (cipher w nr p) = p := by
  rw [invCipher, cipher, addRoundKey_cancel, decRounds_encRounds, invSubBytes_invShiftRows_cancel, addRoundKey_cancel]

/-! ### CBC -/

/-- Both loops run with the same CHAIN, the ciphertext block before, so each block comes back. -/
theorem cbcDecBlocks_cbcEncBlocks (w : List Quad) (nr : Nat) (chain : Block) (ps : List Block) :
    cbcDecBlocks w nr chain (cbcEncBlocks w nr chain ps) = ps := by
  induction ps generalizing chain with
  | nil => rfl
  | cons p ps ih => rw [cbcEncBlocks, cbcDecBlocks, invCipher_cipher, blockXor_cancel, ih]

theorem cbcDec_cbcEnc (key iv : Bytes) {p : Bytes} (h : p.length % 16 = 0) : cbcDec key iv (cbcEnc key iv p) = p := by
  rw [cbcDec, cbcEnc, toBlocks_ofBlocks, cbcDecBlocks_cbcEncBlocks, ofBlocks_toBlocks h]

/-- Settles O41: the lengths are those of whole blocks, and the loops invert each other under any KEY and IV. -/
theorem cbcDecryptionUndoesEncryption : Obligations.CbcDecryptionUndoesEncryption := by
  intro key iv p hp
  have hwhole : 16 * (p.length / 16) = p.length := by omega
  refine ⟨?_, ?_, fun _ _ => cbcDec_cbcEnc key iv hp⟩
  · rw [cbcEnc_length, hwhole]
  · rw [cbcDec_length, hwhole]

end Sys2Proof.Machine

/-! PROOFS. The hex unit (spec 42_hex.md R150 to R152, R154): the value of the digit of a nibble and the digit of a
character's value, the bytes of bytesToHex by position, and decoding against encoding in both directions; then the
statements they settle. -/

namespace Sys2Proof.Machine

/-! ### One character -/

theorem hexDigit_of_le {n : BitVec 4} (h : n.toNat ≤ 9) : hexDigit n = 0x30 + n.setWidth 8 := if_pos h

theorem hexDigit_of_gt {n : BitVec 4} (h : 9 < n.toNat) : hexDigit n = 0x61 + (n.setWidth 8 - 10) :=
  if_neg (Nat.not_le.2 h)

/-- R151 undoes R150. -/
theorem hexVal_hexDigit : ∀ n : BitVec 4, hexVal (hexDigit n) = some (n.setWidth 8) := by decide

/-- The value of a hex character is that of a nibble (R151). -/
theorem hexVal_lt {c v : Byte} (h : hexVal c = some v) : v.toNat < 16 := by
  unfold hexVal at h
  split_ifs at h <;> obtain rfl := Option.some.inj h <;> bv_omega

/-- 'A'..'F' made lowercase (R154). -/
def lowerHex (c : Byte) : Byte := if 0x41 ≤ c.toNat ∧ c.toNat ≤ 0x46 then c + 0x20 else c

/-- R150 undoes R151 up to case: in each of the three ranges, the digit of a character's value is its lowercase. -/
theorem hexDigit_of_hexVal {c v : Byte} (h : hexVal c = some v) : hexDigit (v.setWidth 4) = lowerHex c := by
  unfold hexVal at h
  split_ifs at h with hdigit hupper hlower <;> obtain rfl := Option.some.inj h
  · rw [hexDigit_of_le (by bv_omega), lowerHex, if_neg (by bv_omega)]
    bv_omega
  · rw [hexDigit_of_gt (by bv_omega), lowerHex, if_pos (by bv_omega)]
    bv_omega
  · rw [hexDigit_of_gt (by bv_omega), lowerHex, if_neg (by bv_omega)]
    bv_omega

/-! ### One byte, two characters -/

theorem nibbles_combine (b : Byte) :
    16 * (b.extractLsb' 4 4).setWidth 8 + (b.extractLsb' 0 4).setWidth 8 = b := by
  have hlt : b.toNat < 256 := b.isLt
  apply BitVec.eq_of_toNat_eq
  simp only [BitVec.ofNat_eq_ofNat, BitVec.toNat_add, BitVec.toNat_mul, BitVec.toNat_ofNat, BitVec.toNat_setWidth,
    BitVec.extractLsb'_toNat, Nat.shiftRight_eq_div_pow]
  omega

theorem highNibble_combine (h : Byte) {l : Byte} (hl : l.toNat < 16) :
    (16 * h + l).extractLsb' 4 4 = h.setWidth 4 := by
  apply BitVec.eq_of_toNat_eq
  simp only [BitVec.ofNat_eq_ofNat, BitVec.toNat_add, BitVec.toNat_mul, BitVec.toNat_ofNat, BitVec.toNat_setWidth,
    BitVec.extractLsb'_toNat, Nat.shiftRight_eq_div_pow]
  omega

theorem lowNibble_combine (h l : Byte) : (16 * h + l).extractLsb' 0 4 = l.setWidth 4 := by
  apply BitVec.eq_of_toNat_eq
  simp

/-! ### Byte strings -/

theorem bytesToHex_getElem? (b : Bytes) : ∀ i (h : i < b.length),
    (bytesToHex b)[2 * i]? = some (hexDigit (b[i].extractLsb' 4 4)) ∧
    (bytesToHex b)[2 * i + 1]? = some (hexDigit (b[i].extractLsb' 0 4)) := by
  induction b with
  | nil => intro i h; cases h
  | cons b bs ih =>
    intro i h
    cases i with
    | zero => exact ⟨rfl, rfl⟩
    | succ i => exact ih i (Nat.lt_of_succ_lt_succ h)

/-- A pair of characters with values gives their byte (R153). -/
theorem hexPairs_cons {hi lo h l : Byte} (hhi : hexVal hi = some h) (hlo : hexVal lo = some l) (s : Bytes) :
    hexPairs (hi :: lo :: s) = (hexPairs s).map ((16 * h + l) :: ·) := by
  simp only [hexPairs, hhi, hlo]

theorem hexPairs_bytesToHex (b : Bytes) : hexPairs (bytesToHex b) = some b := by
  induction b with
  | nil => rfl
  | cons b bs ih =>
    rw [bytesToHex, hexPairs_cons (hexVal_hexDigit _) (hexVal_hexDigit _), ih, nibbles_combine, Option.map_some]

/-- The byte of a pair of characters is written as their lowercase (R154). -/
theorem bytesToHex_cons_combine {hi lo h l : Byte} (hhi : hexVal hi = some h) (hlo : hexVal lo = some l) (bs : Bytes) :
    bytesToHex ((16 * h + l) :: bs) = lowerHex hi :: lowerHex lo :: bytesToHex bs := by
  rw [bytesToHex, highNibble_combine h (hexVal_lt hlo), lowNibble_combine, hexDigit_of_hexVal hhi,
    hexDigit_of_hexVal hlo]

/-- An even number of valid characters decodes, and its encoding is their lowercase (R154). -/
theorem exists_hexPairs_eq_some : ∀ s : Bytes, s.length % 2 = 0 → (∀ c ∈ s, hexVal c ≠ none) →
    ∃ b, hexPairs s = some b ∧ bytesToHex b = s.map lowerHex
  | [], _, _ => ⟨[], rfl, rfl⟩
  | [_], heven, _ => absurd heven Nat.one_ne_zero
  | hi :: lo :: s, heven, hvalid => by
    obtain ⟨hhi, hlo, hrest⟩ := by simpa only [List.forall_mem_cons] using hvalid
    obtain ⟨h, hh⟩ := Option.ne_none_iff_exists'.1 hhi
    obtain ⟨l, hl⟩ := Option.ne_none_iff_exists'.1 hlo
    obtain ⟨b, hb, hlower⟩ := exists_hexPairs_eq_some s ((Nat.add_mod_right s.length 2).symm.trans heven) hrest
    refine ⟨(16 * h + l) :: b, ?_, ?_⟩
    · rw [hexPairs_cons hh hl, hb, Option.map_some]
    · rw [bytesToHex_cons_combine hh hl, hlower, List.map_cons, List.map_cons]

/-- hexToBytes on an even length that passes the length check (R153). -/
theorem hexToBytes_of_even {s b : Bytes} (o : OddHex) (hlen : 2 ≤ s.length) (heven : s.length % 2 = 0)
    (hb : hexPairs s = some b) : hexToBytes o (some s) = .ok b := by
  simp [hexToBytes, Nat.not_lt.2 hlen, heven, hb]

/-! ### The statements -/

/-- Settles O32: the length and the positions are inductions over the byte string. -/
theorem bytesToHexWritesTwoDigitsAByte : Obligations.BytesToHexWritesTwoDigitsAByte :=
  ⟨rfl, rfl, fun b => ⟨rfl, bytesToHex_length b, bytesToHex_getElem? b⟩⟩

/-- Settles O34: an even length of at least 2 reaches hexPairs for both values of ODD_HEX, and hexPairs and bytesToHex
undo each other pair by pair. -/
theorem hexRoundTrips : Obligations.HexRoundTrips := by
  intro oddHex
  refine ⟨fun b hb => ?_, rfl, rfl, fun s hlen heven hvalid => ?_⟩
  · have hlen : (bytesToHex b).length = 2 * b.length := bytesToHex_length b
    exact hexToBytes_of_even oddHex (by omega) (by omega) (hexPairs_bytesToHex b)
  · obtain ⟨b, hb, hlower⟩ := exists_hexPairs_eq_some s heven hvalid
    exact ⟨b, hexToBytes_of_even oddHex hlen heven hb, hlower⟩

/-- Settles O30: neither branch carries out of the byte. -/
theorem hexDigitsAreLowercase : Obligations.HexDigitsAreLowercase := by
  intro n
  split_ifs with h
  · rw [hexDigit_of_le h]
    bv_omega
  · rw [hexDigit_of_gt (Nat.not_le.1 h)]
    bv_omega

/-- Settles O31: range by range; the subtraction does not borrow where its range's bounds hold. -/
theorem hexValuesAreOfBothCases : Obligations.HexValuesAreOfBothCases := by
  intro c
  unfold hexVal
  simp only [BitVec.le_def, BitVec.reduceToNat]
  split_ifs with hdigit hupper hlower
  · exact congrArg some (by bv_omega)
  · exact congrArg some (by bv_omega)
  · exact congrArg some (by bv_omega)
  · rfl

end Sys2Proof.Machine

/-! PROOFS. Accept and the commands that leave the cipher engine alone (spec 45_commands.md R170 to R172, R175 to R177):
a CMD write and the step that runs its word, the end states in the terms of R178 and R179, the length check, and one
lemma per command that says where it ends; then the statements they settle. -/

namespace Sys2Proof.Machine

/-! ### The CMD write and the step that runs its word -/

theorem writeData_cmd_idle {s : State} (hidle : s.status.busy = false) (w : Word) :
    writeData 0x000 4 w s = accept w s := if_neg (ne_true_of_eq_false hidle)

theorem writeData_cmd_busy {s : State} (hbusy : s.status.busy = true) (w : Word) :
    writeData 0x000 4 w s = dropWrite s := if_pos hbusy

theorem withFetchWord_toNat (s : State) (w : Word) : s.withFetchWord 32 w.toNat = placeCommand w s := by
  rw [State.withFetchWord, Nat.mod_eq_of_lt w.isLt, BitVec.ofNat_toNat, BitVec.setWidth_eq]

theorem step_placeCommand (s : State) (w : Word) :
    step (placeCommand w s) = exec (decodeWord w) (placeCommand w s) :=
  step_core ((coreNext_iff _).2 ⟨rfl, rfl, .inl rfl⟩)

/-! ### The end states -/

/-- R178 as the model takes it is R178 as the statements write it. -/
theorem okState_eq_succeeded (r : Option Bytes) (s : State) : okState r s = s.succeeded r := rfl

/-- R179 as the model takes it is R179 as the statements write it. -/
theorem errorState_eq_failed (kind : ErrKind) (cause : ErrCause) (s : State) :
    errorState kind cause s = s.failed kind cause := rfl

/-- OUT_LEN holds the length of every result shorter than its 32 bits can say (R178). -/
theorem succeeded_outLen_toNat {r : Bytes} (h : r.length < 2 ^ 32) (s : State) :
    (s.succeeded (some r)).outLen.toNat = r.length := Nat.mod_eq_of_lt h

theorem succeeded_outBuf_read (r : Bytes) (s : State) (i : Nat) : (s.succeeded (some r)).outBuf.read i = r[i]? := by
  rw [← okState_eq_succeeded, okState_outBuf, Memory.read_ofBytes, if_pos i.zero_le, Nat.sub_zero, Option.getD_some]

/-! ### The length check (R172) -/

theorem lenOutOfRange_long {s : State} (hpresent : s.inNull = false) (hlong : s.cfg.nIn < s.inLen.toNat) :
    s.lenOutOfRange = true := by
  simp [State.lenOutOfRange, hpresent, hlong]

theorem lenOutOfRange_fits {s : State} {text : Bytes} (hinput : s.input = some text)
    (hlen : text.length ≤ s.cfg.nIn) : s.lenOutOfRange = false := by
  rw [lenOutOfRange_some hinput]
  exact decide_eq_false (Nat.not_lt.2 hlen)

/-! ### HEX_ENC (R175) -/

theorem exec_hexEnc_inRange {s : State} (h : s.lenOutOfRange = false) :
    exec .hexEnc s = .next (s.succeeded (bytesToHexOpt s.input)) := by
  rw [exec, execHexEnc, withInput_ok h, complete, okState_eq_succeeded]

theorem exec_hexEnc_outOfRange {s : State} (h : s.lenOutOfRange = true) :
    exec .hexEnc s = .next (s.failed .cmd .lenRange) := by
  rw [exec, execHexEnc, withInput_fail h, errorState_eq_failed]

/-! ### HEX_DEC (R176) -/

/-- The state after HEX_DEC, by the result of hexToBytes on its input (R176). -/
def State.hexDecoded (s : State) : HexResult → State
  | .absent => s.succeeded none
  | .ok r => s.succeeded (some r)
  | .failOdd => s.failed .hex .hexOdd
  | .failDigit => s.failed .hex .hexDigit

theorem exec_hexDec_inRange {s : State} (h : s.lenOutOfRange = false) :
    exec .hexDec s = .next (s.hexDecoded (hexToBytes s.cfg.oddHex s.input)) := by
  rw [exec, execHexDec, withInput_ok h]
  cases hexToBytes s.cfg.oddHex s.input <;> rfl

theorem exec_hexDec_outOfRange {s : State} (h : s.lenOutOfRange = true) :
    exec .hexDec s = .next (s.failed .cmd .lenRange) := by
  rw [exec, execHexDec, withInput_fail h, errorState_eq_failed]

/-- Fewer than 2 characters are no byte string, whatever ODD_HEX (R153). -/
theorem hexToBytes_short {text : Bytes} (o : OddHex) (h : text.length < 2) : hexToBytes o (some text) = .absent :=
  if_pos h

/-- A result of hexToBytes is at most half as long as its text (R153). -/
theorem hexToBytes_ok_length {o : OddHex} {text r : Bytes} (h : hexToBytes o (some text) = .ok r) :
    r.length = text.length / 2 := hexPairs_length _ _ (hexToBytes_ok h).1

/-! ### ILLEGAL (R177) -/

theorem exec_illegal (rsvd : BitVec 28) (opcode : BitVec 4) (s : State) :
    exec (.illegal rsvd opcode) s = .next (s.failed .cmd .illegalOp) := rfl

/-- The step on an accepted word that is none of R71's four fails with CMD/ILLEGAL_OP. -/
theorem step_withFetchWord_illegal (s : State) {w : Word} (h1 : w ≠ 0x00000001) (h2 : w ≠ 0x00000002)
    (h3 : w ≠ 0x00000003) (h4 : w ≠ 0x00000004) :
    step (s.withFetchWord 32 w.toNat) = .next ((placeCommand w s).failed .cmd .illegalOp) := by
  obtain ⟨-, -, -, -, hillegal⟩ := decodingFollowsTheOpcodeMap w
  rw [withFetchWord_toNat, step_placeCommand, hillegal h1 h2 h3 h4, exec_illegal]

/-- The STATUS of the failed word 0x00000000: its LAST_OP is 0 (R177). -/
theorem statusWord_failed_zero (s : State) :
    statusWord ((placeCommand 0 s).failed .cmd .illegalOp).status = 0x0009050E := by
  change statusWord ⟨false, true, true, true, false, .cmd, .illegalOp, opcodeField 0⟩ = _
  decide

/-! ### The statements -/

/-- Settles O16: the access check passes, and BUSY decides between accept and the dropped write. -/
theorem cmdWriteIsAcceptedOrDropped : Obligations.CmdWriteIsAcceptedOrDropped := by
  intro s w hr
  have hlegal : legalAccess 0x000 4 := by decide
  rw [hostWrite_legal hr hlegal]
  constructor
  · intro hidle
    rw [writeData_cmd_idle hidle]
    exact ⟨accept w s, rfl, Memory.read_nil, rfl⟩
  · intro hbusy
    rw [writeData_cmd_busy hbusy]
    rfl

/-- Settles O47: the length check and IN_NULL separate the three cases, and the text of at most N_IN bytes has a length
in hex that fits OUT_LEN. -/
theorem hexEncCompletes : Obligations.HexEncCompletes := by
  refine ⟨by decide, fun s => ⟨fun text hinput hlen hwf => ?_, fun hnull => ?_, fun hpresent hlong => ?_⟩⟩
  · obtain ⟨-, -, -, hnIn, -⟩ := hwf
    have hhex : (bytesToHex text).length = 2 * text.length := bytesToHex_length text
    have hexec : exec .hexEnc s = .next (s.succeeded (some (bytesToHex text))) := by
      rw [exec_hexEnc_inRange (lenOutOfRange_fits hinput hlen), hinput]
      rfl
    refine ⟨_, hexec, rfl, ?_, fun i _ => succeeded_outBuf_read _ s i⟩
    rw [succeeded_outLen_toNat (by omega), hhex]
  · have hexec : exec .hexEnc s = .next (s.succeeded none) := by
      rw [exec_hexEnc_inRange (lenOutOfRange_null hnull), input_null hnull]
      rfl
    exact ⟨_, hexec, rfl⟩
  · exact ⟨_, exec_hexEnc_outOfRange (lenOutOfRange_long hpresent hlong), rfl⟩

/-- Settles O48: the length check and IN_NULL as in HEX_ENC; in range, the result of hexToBytes decides. -/
theorem hexDecCompletes : Obligations.HexDecCompletes := by
  refine ⟨by decide, fun s => ⟨fun text hinput hlen hwf => ?_, fun hnull => ?_, fun hpresent hlong => ?_⟩⟩
  · have hexec : exec .hexDec s = .next (s.hexDecoded (hexToBytes s.cfg.oddHex (some text))) := by
      rw [exec_hexDec_inRange (lenOutOfRange_fits hinput hlen), hinput]
    refine ⟨fun r hok => ?_, fun hshort => ?_, fun hodd => ?_, fun hdigit => ?_⟩
    · obtain ⟨-, -, -, hnIn, -⟩ := hwf
      have hr : r.length = text.length / 2 := hexToBytes_ok_length hok
      rw [hok] at hexec
      exact ⟨_, hexec, rfl, succeeded_outLen_toNat (by omega) s, fun i _ => succeeded_outBuf_read r s i⟩
    · rw [hexToBytes_short _ hshort] at hexec
      exact ⟨_, hexec, rfl⟩
    · rw [hodd] at hexec
      exact ⟨_, hexec, rfl⟩
    · rw [hdigit] at hexec
      exact ⟨_, hexec, rfl⟩
  · have hexec : exec .hexDec s = .next (s.succeeded none) := by
      rw [exec_hexDec_inRange (lenOutOfRange_null hnull), input_null hnull]
      rfl
    exact ⟨_, hexec, rfl⟩
  · exact ⟨_, exec_hexDec_outOfRange (lenOutOfRange_long hpresent hlong), rfl⟩

/-- Settles O49: no operand is read, and the failed completion keeps the LAST_OP that accept took from the word. -/
theorem illegalWordCompletesWithItsError : Obligations.IllegalWordCompletesWithItsError := by
  refine ⟨fun s rsvd opcode => ⟨_, exec_illegal rsvd opcode s, rfl⟩, ⟨rfl, rfl⟩, fun s w h1 h2 h3 h4 => ?_, fun s => ?_⟩
  · exact ⟨_, step_withFetchWord_illegal s h1 h2 h3 h4, rfl, rfl, rfl⟩
  · exact ⟨_, step_withFetchWord_illegal s (w := 0) (by decide) (by decide) (by decide) (by decide),
      statusWord_failed_zero s⟩

end Sys2Proof.Machine

/-! PROOFS. The error pairs a command records (spec 60_exceptions.md R202): R202's lists hold no ENCRYPT/BLOCK_ALIGN
(41_aes_cbc.md R128), and a command that ends with ERR set took a failed completion with a listed pair; then the
statement they settle. -/

namespace Sys2Proof.Machine

theorem encrypt_blockAlign_not_mem_errorPairs (i : Instr) : (ErrKind.encrypt, ErrCause.blockAlign) ∉ errorPairs i := by
  cases i <;> simp [errorPairs]

/-- Of the two ways a command ends only the failed completion sets ERR (R178, R179), and its pair is a listed one. -/
theorem Ends.errorPair_mem {i : Instr} {s t : State} (h : Ends i s t) (herr : t.status.err = true) :
    (t.status.errKind, t.status.errCause) ∈ errorPairs i := by
  cases h with
  | failed _ _ _ pair _ => exact pair
  | completed _ _ _ _ => cases herr

/-- Settles O54, by the inversion of exec. -/
theorem onlyTheListedErrorPairsOccur : Obligations.OnlyTheListedErrorPairsOccur := by
  intro i s t hexec herr
  have hpair := (exec_next hexec).errorPair_mem herr
  exact ⟨hpair, ne_of_mem_of_not_mem hpair (encrypt_blockAlign_not_mem_errorPairs i)⟩

end Sys2Proof.Machine

/-! PROOFS. The decoder against the encoder (spec 30_encoding.md R70 to R74): a command is decoded from its two fields,
so from the word and the bytes that carry them; then the statements they settle. -/

namespace Sys2Proof

/-- The decoder gives back a well-formed ILLEGAL from any word with its fields: no earlier arm of R74 fits them. -/
theorem decodeWord_of_illegal_fields {w : Word} (hwf : legalFields (rsvdField w) (opcodeField w) = false) :
    decodeWord w = .illegal (rsvdField w) (opcodeField w) := by
  unfold decodeWord
  by_cases hr : rsvdField w = 0
  · have hop : ¬ opcodeField w = 1 ∧ ¬ opcodeField w = 2 ∧ ¬ opcodeField w = 3 ∧ ¬ opcodeField w = 4 := by
      simpa [legalFields, hr, and_assoc] using hwf
    obtain ⟨h1, h2, h3, h4⟩ := hop
    rw [if_neg (not_not.2 hr), if_neg h1, if_neg h2, if_neg h3, if_neg h4]
  · rw [if_pos hr]

/-- The decoder inverts the encoder on well-formed commands. -/
theorem decodeWord_encode {i : Instr} (hwf : i.wf = true) : decodeWord (encode i) = i := by
  cases i with
  | encode => decide
  | decode => decide
  | hexEnc => decide
  | hexDec => decide
  | illegal rsvd opcode =>
    obtain ⟨hopcode, hrsvd⟩ := Laws.WordFields.illegal rsvd opcode
    have hfields : legalFields (rsvdField (encode (.illegal rsvd opcode)))
        (opcodeField (encode (.illegal rsvd opcode))) = false := by
      rw [hopcode, hrsvd]
      simpa [Instr.wf, Laws.WordFields.rsvd, Laws.WordFields.opcode] using hwf
    rw [decodeWord_of_illegal_fields hfields, hopcode, hrsvd]
    rfl

/-- Decoding the four bytes of a word is decoding the word (R52, R70). -/
theorem decodeBytes_leBytes (w : Word) : decodeBytes (leBytes 4 w) = .ok (decodeWord w) := by
  rw [decodeBytes, Machine.leWord_leBytes]
  rfl

/-- Every word decodes to a well-formed command (R72): an ILLEGAL comes from no legal word. -/
theorem decodeWord_wf (w : Word) : (decodeWord w).wf = true := by
  cases hlegal : legalFields (rsvdField w) (opcodeField w) with
  | false =>
    rw [decodeWord_of_illegal_fields hlegal]
    simp [Instr.wf, hlegal]
  | true =>
    have hfields : rsvdField w = 0 ∧ (((opcodeField w = 1 ∨ opcodeField w = 2) ∨ opcodeField w = 3) ∨
        opcodeField w = 4) := by simpa [legalFields] using hlegal
    obtain ⟨hr, ((h | h) | h) | h⟩ := hfields <;> simp [decodeWord, hr, h, Instr.wf]

/-! ### The statements -/

/-- Settles O2: the encoder writes the command's fields, and the decoder reads the command off them. -/
theorem encodedCommandsDecodeBack : Obligations.EncodedCommandsDecodeBack := by
  intro i hwf
  have hword : decodeWord (encode i) = i := decodeWord_encode hwf
  refine ⟨hword, ?_⟩
  rw [encodeBytes, decodeBytes_leBytes, hword]

/-- Settles O3, by the two laws of the decoder on words. -/
theorem decodedWordsEncodeBack : Obligations.DecodedWordsEncodeBack :=
  fun w => ⟨decodeWord_wf w, encode_decodeWord w⟩

/-- Settles O4: each is one run of the decoder on literals. -/
theorem writtenWordsDecode : Obligations.WrittenWordsDecode := by
  unfold Obligations.WrittenWordsDecode
  decide

end Sys2Proof

/-! PROOFS. The step (spec 45_commands.md R171, 70_reset_and_hazards.md R230 to R241): what a host event can do, said
once, the inversion of the step, and that each effect keeps the invariant of the block; then the statements they
settle. -/

namespace Sys2Proof.Machine

/-! ### What a host event can do -/

/-- What the host event `op`, taken off the list, can do to the block when it answers a next state: R58's reads and
R75's POLL, R237's dropped write, R170's accept, R24 to R27's stores, and R230's two edges of the reset input. -/
inductive HostEffect (op : HostOp) (s : State) : State → Prop
  | unchanged : HostEffect op s s
  | answered (addr n : Nat) (v : Word) : HostEffect op s (respond addr n v s)
  | polledAgain (addr n : Nat) (v : Word) : HostEffect op s { respond addr n v s with hostOps := .poll :: s.hostOps }
  | dropped (busy : s.status.busy = true) : HostEffect op s (dropWrite s)
  | accepted (w : Word) (idle : s.status.busy = false) : HostEffect op s (accept w s)
  | inLenStored (v : Word) (idle : s.status.busy = false) : HostEffect op s { s with inLen := v }
  | inNullStored (b : Bool) (idle : s.status.busy = false) : HostEffect op s { s with inNull := b }
  | inBufStored (i : Nat) (bs : Bytes) (idle : s.status.busy = false) :
      HostEffect op s { s with inBuf := storeIn s.cfg.nIn i bs s.inBuf }
  | resetRose (event : op = .reset true) : HostEffect op s { s with resetAsserted := true }
  | resetFell (event : op = .reset false) (asserted : s.resetAsserted = true) :
      HostEffect op s { State.resetWith s.cfg with
        hostOps := s.hostOps, coreWait := s.coreWait, draws := s.draws + 1, reads := s.reads }

theorem writeData_effect (op : HostOp) (off n : Nat) (v : Word) (s : State) :
    HostEffect op s (writeData off n v s) := by
  cases hb : s.status.busy with
  | true =>
    obtain h | h := writeData_busy hb off n v <;> rw [h]
    · exact .unchanged
    · exact .dropped hb
  | false =>
    obtain h | h | h | h | h := writeData_idle hb off n v <;> rw [h]
    · exact .unchanged
    · exact .accepted v hb
    · exact .inLenStored v hb
    · exact .inNullStored _ hb
    · exact .inBufStored _ _ hb

/-- The inversion of a host event. -/
theorem hostEvent_next {op : HostOp} {s t : State} (h : hostEvent op s = .next t) : HostEffect op s t := by
  cases op with
  | read addr n =>
    obtain ⟨off, -, hk, -⟩ := withAccess_next h
    obtain rfl := next_inj hk
    exact .answered ..
  | write addr n v =>
    obtain ⟨off, -, hk, -⟩ := withAccess_next h
    obtain rfl := next_inj hk
    split
    · exact .unchanged
    · exact writeData_effect ..
  | poll =>
    obtain ⟨off, -, hk, -⟩ := withAccess_next h
    obtain rfl := next_inj hk
    split
    · exact .polledAgain ..
    · exact .answered ..
  | reset level =>
    obtain rfl := next_inj h
    cases level with
    | true => exact .resetRose rfl
    | false =>
      unfold resetInput
      rw [if_neg Bool.false_ne_true]
      split
      · exact .resetFell rfl ‹_›
      · exact .unchanged

/-- The state on which the host's next event takes effect: the event taken off the list, one off the wait (log 5, 6). -/
def State.popped (s : State) (rest : List HostOp) : State := { s with hostOps := rest, coreWait := s.coreWait - 1 }

theorem step_popped {s : State} {op : HostOp} {rest : List HostOp} (h : coreNext s = false)
    (ho : s.hostOps = op :: rest) : step s = hostEvent op (s.popped rest) := step_host h ho

/-- The inversion of the step: the core's completion step, nothing to do, or the host's next event. -/
theorem step_next {s t : State} (h : step s = .next t) :
    (coreNext s = true ∧ Ends (decodeWord s.pend) s t) ∨ t = s ∨
      ∃ op rest, s.hostOps = op :: rest ∧ HostEffect op (s.popped rest) t := by
  cases hc : coreNext s with
  | true =>
    rw [step_core hc] at h
    exact .inl ⟨rfl, exec_next h⟩
  | false =>
    cases ho : s.hostOps with
    | nil =>
      rw [step_idle hc ho] at h
      exact .inr (.inl (next_inj h).symm)
    | cons op rest =>
      rw [step_popped hc ho] at h
      exact .inr (.inr ⟨op, rest, rfl, hostEvent_next h⟩)

/-! ### The invariant at reset -/

theorem statusZero_legal : Status.Legal Status.zero :=
  { busy := nofun, ok := nofun, failed := nofun }

theorem resetWith_inv {c : Config} (hc : c.wf) : (State.resetWith c).Inv :=
  { cfg := hc, key := rfl, iv := rfl, inWf := Memory.wf_nil, inRange := nofun, outWf := Memory.wf_nil,
    outRange := nofun, outLen := Nat.zero_le _, seq := by simp [State.resetWith, Status.zero],
    status := statusZero_legal, lastOp := fun _ => show (0 : BitVec 4) = opcodeField 0 by decide, busyOut := nofun,
    nullOut := nofun, pairs := nofun }

/-! ### The invariant after a command -/

/-- The invariant does not look at the cipher engine. -/
theorem State.Inv.engineState {s : State} (h : s.Inv) (d : Dir) (ch : Block) :
    State.Inv { engineState d s with chain := ch } := { h with }

/-- No listed pair has the code NONE (R202). -/
theorem errorPairs_ne_none {i : Instr} {k : ErrKind} {c : ErrCause} (h : (k, c) ∈ errorPairs i) :
    k ≠ .none ∧ c ≠ .none := by
  constructor <;> rintro rfl <;> cases i <;> simp [errorPairs] at h

theorem statusOk_legal (outNull : Bool) (st : Status) : (statusOk outNull st).Legal :=
  { busy := nofun, ok := fun _ _ => ⟨rfl, rfl⟩, failed := nofun }

theorem statusError_legal {i : Instr} {k : ErrKind} {c : ErrCause} (h : (k, c) ∈ errorPairs i) (st : Status) :
    (statusError k c st).Legal :=
  { busy := nofun, ok := nofun, failed := fun _ => ⟨rfl, rfl, errorPairs_ne_none h⟩ }

/-- N_OUT bounds what the 32 bits of OUT_LEN have to hold (R7). -/
theorem nOut_lt {c : Config} (h : c.wf) : c.nOut < 2 ^ 32 := by
  obtain ⟨-, -, -, hmax, -⟩ := h
  unfold Config.nOut
  omega

/-- OUT_LEN is the length of a result that fits OUT_BUF (R178). -/
theorem okState_outLen_toNat {c : Config} {r : Option Bytes} (hc : c.wf) (fits : (r.getD []).length ≤ c.nOut)
    (s : State) : (okState r s).outLen.toNat = (r.getD []).length :=
  Nat.mod_eq_of_lt (fits.trans_lt (nOut_lt hc))

theorem State.Inv.okState {s : State} {r : Option Bytes} (h : s.Inv) (hbusy : s.status.busy = true)
    (fits : (r.getD []).length ≤ s.cfg.nOut) : (okState r s).Inv :=
  have hlen : (Machine.okState r s).outLen.toNat = (r.getD []).length := okState_outLen_toNat h.cfg fits s
  { h with
    outWf := Memory.ofBytes_wf 0 _
    outRange := fun c hc => by
      obtain ⟨-, hlt⟩ := Memory.mem_ofBytes hc
      omega
    outLen := hlen.trans_le fits
    seq := by simp
    status := statusOk_legal r.isNone s.status
    lastOp := fun _ => h.lastOp (.inl hbusy)
    busyOut := nofun
    nullOut := fun hnull => by
      obtain rfl : r = none := Option.isNone_iff_eq_none.1 hnull
      exact ⟨rfl, rfl⟩
    pairs := nofun }

theorem State.Inv.errorState {s : State} {k : ErrKind} {c : ErrCause} (h : s.Inv) (hbusy : s.status.busy = true)
    (pair : (k, c) ∈ errorPairs (decodeWord s.pend)) : (errorState k c s).Inv :=
  { h with
    outWf := Memory.wf_nil
    outRange := nofun
    outLen := Nat.zero_le _
    seq := by simp
    status := statusError_legal pair s.status
    lastOp := fun _ => h.lastOp (.inl hbusy)
    busyOut := nofun
    nullOut := fun _ => ⟨rfl, rfl⟩
    pairs := fun _ => pair }

/-- Both ways a command ends keep the invariant. -/
theorem Ends.inv {s t : State} (h : s.Inv) (hbusy : s.status.busy = true) (he : Ends (decodeWord s.pend) s t) :
    t.Inv := by
  cases he with
  | failed k c u pair engine =>
    obtain rfl | ⟨d, -, rfl⟩ := engine
    · exact h.errorState hbusy pair
    · exact (h.engineState d (loadBlock s.iv)).errorState hbusy pair
  | completed r u fits engine =>
    obtain rfl | ⟨d, ch, -, rfl⟩ := engine
    · exact h.okState hbusy (fits h.cfg)
    · exact (h.engineState d ch).okState hbusy (fits h.cfg)

/-! ### The invariant after a host event -/

theorem State.Inv.accept {s : State} (h : s.Inv) (w : Word) : (accept w s).Inv :=
  { h with
    outWf := Memory.wf_nil
    outRange := nofun
    outLen := Nat.zero_le _
    seq := by simp
    status := { busy := fun _ => ⟨rfl, rfl, rfl, rfl, rfl⟩, ok := nofun, failed := nofun }
    lastOp := fun _ => rfl
    busyOut := fun _ => ⟨rfl, rfl⟩
    nullOut := nofun
    pairs := nofun }

/-- Nor at the host's list and the wait. -/
theorem State.Inv.popped {s : State} (h : s.Inv) (rest : List HostOp) : (s.popped rest).Inv := { h with }

/-- Every effect of a host event keeps the invariant. -/
theorem HostEffect.inv {op : HostOp} {s t : State} (h : s.Inv) (he : HostEffect op s t) : t.Inv := by
  cases he with
  | unchanged => exact h
  | answered addr n v => exact { h with }
  | polledAgain addr n v => exact { h with }
  | dropped _ => exact { h with status := { h.status with } }
  | accepted w _ => exact h.accept w
  | inLenStored v _ => exact { h with }
  | inNullStored b _ => exact { h with }
  | inBufStored i bs _ =>
    exact { h with inWf := storeIn_wf _ i bs h.inWf, inRange := storeIn_range _ i bs h.inRange }
  | resetRose _ => exact { h with }
  | resetFell _ _ => exact { resetWith_inv h.cfg with }

/-! ### KEY, IV and the parameters -/

/-- No command changes KEY, IV or the parameters (R29, R30). -/
theorem Ends.cfg_key_iv {i : Instr} {s t : State} (he : Ends i s t) : t.cfg = s.cfg ∧ t.key = s.key ∧ t.iv = s.iv := by
  cases he with
  | failed _ _ _ _ engine => obtain rfl | ⟨d, -, rfl⟩ := engine <;> exact ⟨rfl, rfl, rfl⟩
  | completed _ _ _ engine => obtain rfl | ⟨d, ch, -, rfl⟩ := engine <;> exact ⟨rfl, rfl, rfl⟩

/-- No host event changes the parameters, and only the fall of the reset input may change KEY or IV (R231). -/
theorem HostEffect.cfg_key_iv {op : HostOp} {s t : State} (he : HostEffect op s t) :
    t.cfg = s.cfg ∧ ((t.key = s.key ∧ t.iv = s.iv) ∨ (op = .reset false ∧ s.resetAsserted = true)) := by
  cases he with
  | resetFell event asserted => exact ⟨rfl, .inr ⟨event, asserted⟩⟩
  | _ => exact ⟨rfl, .inl ⟨rfl, rfl⟩⟩

/-! ### The reset input -/

theorem coreNext_reset {s : State} (hr : s.resetAsserted = true) : coreNext s = false := by
  simp [coreNext, hr]

/-- The step on which the reset input falls (R230). -/
theorem step_resetFell {s : State} {rest : List HostOp} (hr : s.resetAsserted = true)
    (ho : s.hostOps = .reset false :: rest) :
    step s = .next { State.resetWith s.cfg with
      hostOps := rest, coreWait := s.coreWait - 1, draws := s.draws + 1, reads := s.reads } := by
  rw [step_host (coreNext_reset hr) ho, hostEvent, resetInput, if_neg Bool.false_ne_true, if_pos hr]

/-! ### The host's turn -/

theorem coreNext_false {s : State} (h : s.seq = .idle ∨ s.resetAsserted = true ∨ (s.coreWait ≠ 0 ∧ s.hostOps ≠ [])) :
    coreNext s = false := by
  refine Bool.eq_false_iff.2 fun hc => ?_
  obtain ⟨hseq, hr, hwait⟩ := (coreNext_iff s).1 hc
  obtain h | h | ⟨hw, ho⟩ := h
  · rw [h] at hseq
    cases hseq
  · rw [h] at hr
    cases hr
  · exact hwait.elim hw ho

/-! ### The statements -/

/-- Settles O12: the step's inversion gives a completed command or one effect of a host event, and each of them keeps
the invariant. -/
theorem everyStepKeepsTheInvariant : Obligations.EveryStepKeepsTheInvariant := by
  intro s t h hstep
  obtain ⟨hc, hends⟩ | rfl | ⟨op, rest, -, heffect⟩ := step_next hstep
  · obtain ⟨hseq, -, -⟩ := (coreNext_iff s).1 hc
    exact hends.inv h (h.seq.1 hseq)
  · exact h
  · exact heffect.inv (h.popped rest)

/-- Settles O14, by the inversion of the step. -/
theorem noStepChangesKeyOrIv : Obligations.NoStepChangesKeyOrIv := by
  intro s t hstep
  have hinv : t.cfg = s.cfg ∧ (¬ (s.resetAsserted = true ∧ ∃ rest, s.hostOps = .reset false :: rest) →
      t.key = s.key ∧ t.iv = s.iv) := by
    obtain ⟨-, hends⟩ | rfl | ⟨op, rest, ho, heffect⟩ := step_next hstep
    · obtain ⟨hcfg, hsecrets⟩ := hends.cfg_key_iv
      exact ⟨hcfg, fun _ => hsecrets⟩
    · exact ⟨rfl, fun _ => ⟨rfl, rfl⟩⟩
    · obtain ⟨hcfg, hsecrets | ⟨rfl, hr⟩⟩ := heffect.cfg_key_iv
      · exact ⟨hcfg, fun _ => hsecrets⟩
      · exact ⟨hcfg, fun hno => absurd ⟨hr, rest, ho⟩ hno⟩
  obtain ⟨hcfg, hsecrets⟩ := hinv
  refine ⟨hcfg, hsecrets, fun rest hr ho => ?_⟩
  rw [step_resetFell hr ho] at hstep
  obtain rfl := next_inj hstep
  exact ⟨rfl, rfl⟩

/-- Settles O5: the condition is `coreNext`. -/
theorem stepRunsThePendingCommand : Obligations.StepRunsThePendingCommand :=
  fun s hseq hr hturn => step_core ((coreNext_iff s).2 ⟨hseq, hr, hturn⟩)

/-- Settles O6: the placed word is in PEND and the wait is over. -/
theorem placedCommandRunsNext : Obligations.PlacedCommandRunsNext := by
  intro s w
  rw [withFetchWord_toNat]
  exact ⟨rfl, step_placeCommand s w⟩

/-- Settles O7: each of the conditions makes it the host's turn. -/
theorem hostEventsTakeTheirTurn : Obligations.HostEventsTakeTheirTurn := by
  refine fun s => ⟨fun op rest ho hturn => step_host (coreNext_false ?_) ho,
    fun ho hturn => step_idle (coreNext_false ?_) ho⟩
  · exact hturn.imp_right (Or.imp_right fun hw => ⟨hw, ho ▸ List.cons_ne_nil op rest⟩)
  · exact hturn.imp_right .inl

/-- Settles O11: the default parameters are legal. -/
theorem resetMeetsTheInvariant : Obligations.ResetMeetsTheInvariant :=
  ⟨resetWith_inv (by decide), fun _ hc => resetWith_inv hc⟩

/-- Settles O13: the rise and the fall are host events, and while reset is asserted the turn is the host's. -/
theorem resetAbandonsTheCommand : Obligations.ResetAbandonsTheCommand := by
  refine fun s => ⟨fun rest ho hturn => ?_, fun hr ho => step_idle (coreNext_reset hr) ho,
    fun rest hr ho => step_resetFell hr ho⟩
  have hhost : coreNext s = false :=
    coreNext_false (hturn.imp_right fun hw => .inr ⟨hw, ho ▸ List.cons_ne_nil _ rest⟩)
  rw [step_host hhost ho]
  rfl

end Sys2Proof.Machine

/-! PROOFS. The bus window's storage (spec 20_memory.md R50 to R58, 10_state.md R21 to R31): what each offset holds,
what a legal read and a write to the input do, STATUS as a number, and that no access sees the secrets; then the
statements they settle. -/

namespace Sys2Proof.Machine

/-! ### What the window holds -/

/-- CMD reads as 0 (R22). -/
theorem peek_cmd (s : State) {k : Nat} (hk : k < 4) : s.peek (0x000 + k) = some 0 := by
  have hzero : s.peek (0x000 + k) = some (wordByte 0 k) := by interval_cases k <;> rfl
  rw [hzero, wordByte, BitVec.ofNat_eq_ofNat, BitVec.extractLsb'_zero]
  rfl

theorem peek_status (s : State) {k : Nat} (hk : k < 4) :
    s.peek (0x004 + k) = some (wordByte (statusWord s.status) k) := by
  interval_cases k <;> rfl

theorem peek_inLen (s : State) {k : Nat} (hk : k < 4) : s.peek (0x008 + k) = some (wordByte s.inLen k) := by
  interval_cases k <;> rfl

theorem peek_inCtrl (s : State) {k : Nat} (hk : k < 4) :
    s.peek (0x00C + k) = some (wordByte (inCtrlWord s.inNull) k) := by
  interval_cases k <;> rfl

theorem peek_outLen (s : State) {k : Nat} (hk : k < 4) : s.peek (0x010 + k) = some (wordByte s.outLen k) := by
  interval_cases k <;> rfl

/-- IN_CTRL is IN_NULL in bit 0 and 0 elsewhere (R25). -/
theorem wordByte_inCtrlWord (b : Bool) {k : Nat} (hk : k < 4) :
    wordByte (inCtrlWord b) k = if b = true ∧ k = 0 then 1 else 0 := by
  cases b <;> interval_cases k <;> rfl

theorem peek_inBuf {s : State} {i : Nat} (hc : s.cfg.wf) (hi : i < s.cfg.nIn) :
    s.peek (0x10000 + i) = s.inBuf.read i := by
  obtain ⟨-, -, -, hmax, -⟩ := hc
  have hi' : 0x10000 + i - inBufBase = i := Nat.add_sub_cancel_left ..
  simp only [State.peek, region_inWindow (show 0x10000 ≤ 0x10000 + i by omega) (by omega), hi', if_pos hi]

theorem nOut_le {c : Config} (hc : c.wf) : c.nOut ≤ 0x10000 := by
  obtain ⟨-, -, -, hmax, -⟩ := hc
  unfold Config.nOut
  omega

theorem peek_outBuf {s : State} {i : Nat} (hc : s.cfg.wf) (hi : i < s.cfg.nOut) :
    s.peek (0x20000 + i) = s.outBuf.read i := by
  have hmax : s.cfg.nOut ≤ 0x10000 := nOut_le hc
  have hi' : 0x20000 + i - outBufBase = i := Nat.add_sub_cancel_left ..
  simp only [State.peek, region_outWindow (show 0x20000 ≤ 0x20000 + i by omega) (by omega), hi', if_pos hi]

/-! ### STATUS as a number (R23) -/

theorem statusWord_toNat (st : Status) :
    (statusWord st).toNat =
      st.busy.toNat + 2 * st.done.toNat + 4 * st.err.toNat + 8 * st.outNull.toNat + 16 * st.ovr.toNat +
      2 ^ 8 * (errKindCode st.errKind).toNat + 2 ^ 16 * (errCauseCode st.errCause).toNat +
      2 ^ 24 * st.lastOp.toNat := by
  simp only [statusWord, toNat_append_add, BitVec.toNat_ofBool, BitVec.toNat_ofNat]
  omega

/-- STATUS.BUSY is bit 0. -/
theorem statusWord_bit_zero (st : Status) : (statusWord st).getLsbD 0 = st.busy := by
  rw [statusWord, BitVec.getLsbD_append]
  simp

theorem statusWord_zero : statusWord Status.zero = 0 := by decide

theorem inCtrlWord_false : inCtrlWord false = 0 := by decide

/-! ### Reads -/

theorem legalAccess_width {off n : Nat} (h : legalAccess off n) : n ≤ 4 := by
  unfold legalAccess at h
  split at h <;> omega

theorem leWord_toNat {bs : Bytes} (h : bs.length ≤ 4) : (leWord bs).toNat = leNat bs := by
  have hpow : 256 ^ bs.length ≤ 256 ^ 4 := Nat.pow_le_pow_right (by decide) h
  exact Nat.mod_eq_of_lt ((leNat_lt bs).trans_le hpow)

/-- Byte `k` of the value of a transfer is its byte `k` (R52). -/
theorem wordByte_leWord {bs : Bytes} (h : bs.length ≤ 4) {k : Nat} (hk : k < bs.length) :
    wordByte (leWord bs) k = bs[k] := by
  apply BitVec.eq_of_toNat_eq
  rw [wordByte, BitVec.extractLsb'_toNat, leWord_toNat h, Nat.shiftRight_eq_div_pow, pow_mul]
  exact leNat_byte bs k hk

/-- A read of `n` bytes is below 2^(8n): zero-extended (R9). -/
theorem readData_lt (s : State) (off : Nat) {n : Nat} (hn : n ≤ 4) : (s.readData off n).toNat < 2 ^ (8 * n) := by
  rw [State.readData, leWord_toNat (by simpa using hn), pow_mul]
  simpa using leNat_lt ((List.range n).map fun k => s.busByte (off + k))

theorem wordByte_readData (s : State) (off : Nat) {n k : Nat} (hn : n ≤ 4) (hk : k < n) :
    wordByte (s.readData off n) k = s.busByte (off + k) := by
  rw [State.readData, wordByte_leWord (by simpa using hn) (by simpa using hk), List.getElem_map, List.getElem_range]

theorem busByte_eq {s : State} (hr : s.resetAsserted = false) (off : Nat) :
    s.busByte off = (s.peek off).getD (Config.freeByte s.draws off) := if_neg (ne_true_of_eq_false hr)

theorem readData_status {s : State} (hr : s.resetAsserted = false) : s.readData 0x004 4 = statusWord s.status := by
  have hbytes : (List.range 4).map (fun k => s.busByte (0x004 + k)) = leBytes 4 (statusWord s.status) := by
    refine List.map_congr_left fun k hk => ?_
    rw [busByte_eq hr, peek_status s (List.mem_range.1 hk), Option.getD_some]
  rw [State.readData, hbytes, leWord_leBytes]

/-! ### Writes to the input (R237) -/

theorem writeData_inLen (n : Nat) (v : Word) (s : State) :
    writeData 0x008 n v s = inputWrite (fun s => { s with inLen := v }) s := rfl

theorem writeData_inCtrl (n : Nat) (v : Word) (s : State) :
    writeData 0x00C n v s = inputWrite (fun s => { s with inNull := v.getLsbD 0 }) s := rfl

theorem inputWrite_idle {s : State} (h : s.status.busy = false) (f : State → State) : inputWrite f s = f s :=
  if_neg (ne_true_of_eq_false h)

theorem inputWrite_busy {s : State} (h : s.status.busy = true) (f : State → State) : inputWrite f s = dropWrite s :=
  if_pos h

theorem writeData_inWindow_idle {s : State} {i : Nat} (hi : i < 0x10000) (hidle : s.status.busy = false) (n : Nat)
    (v : Word) : writeData (0x10000 + i) n v s = { s with inBuf := storeIn s.cfg.nIn i (leBytes n v) s.inBuf } := by
  have hi' : 0x10000 + i - inBufBase = i := Nat.add_sub_cancel_left ..
  simp only [writeData, region_inWindow (show 0x10000 ≤ 0x10000 + i by omega) (by omega), inputWrite_idle hidle, hi']

theorem leBytes_getElem? {n k : Nat} (h : k < n) (v : Word) : (leBytes n v)[k]? = some (wordByte v k) := by
  simp [leBytes, List.getElem?_range h]

/-- What IN_BUF holds after a write of `n` bytes at index `i` (R54, R56). -/
theorem read_storeIn_leBytes (nIn i n : Nat) (v : Word) (m : Memory) (j : Nat) :
    (storeIn nIn i (leBytes n v) m).read j =
      if i ≤ j ∧ j < i + n ∧ j < nIn then some (wordByte v (j - i)) else m.read j := by
  have hlen : (leBytes n v).length = n := by simp [leBytes]
  rw [read_storeIn, hlen]
  split_ifs with h
  · exact leBytes_getElem? (by omega) v
  · rfl

/-! ### Accesses that go through -/

/-- An access that passes the checks does what its transaction says; the converse is `withAccess_next`. -/
theorem withAccess_of {s : State} {addr n off : Nat} {k : Nat → Outcome State Fault Refusal}
    (ho : busOffset s.cfg addr = some off) (hpass : s.resetAsserted = true ∨ accessFault off n = none) :
    withAccess s addr n k = k off := by
  obtain h | h := hpass <;> simp [withAccess, ho, h]

theorem busOffset_outside {c : Config} {addr : Nat} (h : addr < c.base ∨ c.base + 0x40000 ≤ addr) :
    busOffset c addr = none := by
  unfold busOffset windowSize
  exact if_neg (by omega)

theorem withAccess_outside {s : State} {addr : Nat} (h : addr < s.cfg.base ∨ s.cfg.base + 0x40000 ≤ addr) (n : Nat)
    (k : Nat → Outcome State Fault Refusal) : withAccess s addr n k = .refused .outsideWindow := by
  simp [withAccess, busOffset_outside h]

/-! ### POLL (R75) -/

/-- The state after a turn of POLL that read `v`: the answer is recorded, and POLL goes on if bit 0 is set. -/
def pollAnswer (v : Word) (s : State) : State :=
  if v.getLsbD 0 then { respond (s.cfg.base + 4) 4 v s with hostOps := .poll :: s.hostOps }
  else respond (s.cfg.base + 4) 4 v s

theorem pollTurn_eq (s : State) :
    pollTurn s = withAccess s (s.cfg.base + 4) 4 fun off => .next (pollAnswer (s.readData off 4) s) := rfl

/-- With reset not asserted POLL reads STATUS. -/
theorem pollTurn_next {s : State} (hr : s.resetAsserted = false) :
    pollTurn s = .next (pollAnswer (statusWord s.status) s) := by
  have hlegal : accessFault 4 4 = none := by decide
  rw [pollTurn_eq, withAccess_of (busOffset_base s.cfg (show 4 < 0x40000 by decide)) (.inr hlegal), readData_status hr]

/-! ### The secrets (R20, R29 to R31) -/

section Secrets

variable {s t : State} (key iv : Bytes) (dir : Dir) (chain : Block) (rk : List Quad)

theorem readData_withSecrets (off n : Nat) :
    (s.withSecrets key iv dir chain rk).readData off n = s.readData off n := rfl

/-- A dropped write is dropped with any secrets, and another write does not read them if `f` does not. -/
theorem inputWrite_withSecrets {f : State → State}
    (hf : f (s.withSecrets key iv dir chain rk) = (f s).withSecrets key iv dir chain rk) :
    inputWrite f (s.withSecrets key iv dir chain rk) = (inputWrite f s).withSecrets key iv dir chain rk := by
  cases hb : s.status.busy with
  | true => rw [inputWrite_busy hb, inputWrite_busy (s := s.withSecrets key iv dir chain rk) hb]; rfl
  | false => rw [inputWrite_idle hb, inputWrite_idle (s := s.withSecrets key iv dir chain rk) hb, hf]

theorem writeData_withSecrets (off n : Nat) (v : Word) :
    writeData off n v (s.withSecrets key iv dir chain rk) = (writeData off n v s).withSecrets key iv dir chain rk := by
  unfold writeData
  cases region off with
  | register =>
    dsimp only
    split_ifs
    · exact inputWrite_withSecrets (f := accept v) key iv dir chain rk rfl
    · rfl
    · exact inputWrite_withSecrets key iv dir chain rk rfl
    · exact inputWrite_withSecrets key iv dir chain rk rfl
    · rfl
  | inWindow => exact inputWrite_withSecrets key iv dir chain rk rfl
  | outWindow => rfl
  | reserved => rfl

/-- The access checks do not look at the secrets. -/
theorem withAccess_withSecrets {addr n : Nat} {k k' : Nat → Outcome State Fault Refusal}
    (h : withAccess s addr n k = .next t)
    (hk : ∀ off, k off = .next t → k' off = .next (t.withSecrets key iv dir chain rk)) :
    withAccess (s.withSecrets key iv dir chain rk) addr n k' = .next (t.withSecrets key iv dir chain rk) := by
  obtain ⟨off, ho, hoff, hpass⟩ := withAccess_next h
  rw [withAccess_of (s := s.withSecrets key iv dir chain rk) ho hpass]
  exact hk off hoff

theorem memRead_withSecrets {addr n : Nat} (h : memRead addr n s = .next t) :
    memRead addr n (s.withSecrets key iv dir chain rk) = .next (t.withSecrets key iv dir chain rk) := by
  refine withAccess_withSecrets key iv dir chain rk h fun off hoff => ?_
  obtain rfl := next_inj hoff
  rfl

theorem memWrite_withSecrets {addr n : Nat} {v : Word} (h : memWrite addr n v s = .next t) :
    memWrite addr n v (s.withSecrets key iv dir chain rk) = .next (t.withSecrets key iv dir chain rk) := by
  refine withAccess_withSecrets key iv dir chain rk h fun off hoff => ?_
  obtain rfl := next_inj hoff
  rw [writeData_withSecrets]
  exact congrArg _ (apply_ite (State.withSecrets key iv dir chain rk) ..).symm

theorem pollAnswer_withSecrets (v : Word) :
    pollAnswer v (s.withSecrets key iv dir chain rk) = (pollAnswer v s).withSecrets key iv dir chain rk := by
  unfold pollAnswer
  cases v.getLsbD 0 <;> rfl

theorem pollTurn_withSecrets (h : pollTurn s = .next t) :
    pollTurn (s.withSecrets key iv dir chain rk) = .next (t.withSecrets key iv dir chain rk) := by
  rw [pollTurn_eq] at h ⊢
  refine withAccess_withSecrets key iv dir chain rk h fun off hoff => ?_
  obtain rfl := next_inj hoff
  rw [readData_withSecrets, pollAnswer_withSecrets]

end Secrets

/-- Every effect of an event other than the reset input's leaves the secrets alone. -/
theorem HostEffect.secrets {op : HostOp} {s t : State} (he : HostEffect op s t) (hop : ∀ level, op ≠ .reset level) :
    t = t.withSecrets s.key s.iv s.dir s.chain s.rk := by
  cases he with
  | resetRose event => exact absurd event (hop true)
  | resetFell event _ => exact absurd event (hop false)
  | _ => rfl

/-! ### The statements -/

/-- Settles O17: each of the three targets is an input, and `State.input` does not look at STATUS. -/
theorem inputWritesWhileBusyAreDropped : Obligations.InputWritesWhileBusyAreDropped := by
  intro s off n v hr hbusy hoff hlegal
  have hdrop : writeData off n v s = dropWrite s := by
    obtain (rfl | rfl) | ⟨hge, hlt⟩ := hoff
    · rw [writeData_inLen, inputWrite_busy hbusy]
    · rw [writeData_inCtrl, inputWrite_busy hbusy]
    · exact writeData_inWindow_busy hge hlt hbusy n v
  refine ⟨dropWrite s, ?_, rfl, rfl⟩
  rw [hostWrite_legal hr hlegal, hdrop]

/-- Settles O18: each of the three targets is an input, and the window's bytes are those of a store. -/
theorem inputWritesWhileIdleAreStored : Obligations.InputWritesWhileIdleAreStored := by
  refine fun s v hr hidle => ⟨?_, ?_, fun i n hi hlegal => ?_⟩
  · rw [hostWrite_legal hr (by decide), writeData_inLen, inputWrite_idle hidle]
  · rw [hostWrite_legal hr (by decide), writeData_inCtrl, inputWrite_idle hidle]
  · rw [hostWrite_legal hr hlegal, writeData_inWindow_idle hi hidle]
    exact ⟨_, rfl, rfl, read_storeIn_leBytes s.cfg.nIn i n v s.inBuf⟩

/-- Settles O23: an aligned access is legal, any other fails the access check, and an address outside the window has
no offset. -/
theorem windowAccessesAreNaturallyAligned : Obligations.WindowAccessesAreNaturallyAligned := by
  refine fun s v hr => ⟨fun off n hge hlt => ⟨fun haligned => ?_, fun hill => ?_⟩, fun addr n hout => ?_⟩
  · have hlegal : legalAccess off n := (legalAccess_window hge).2 ⟨hlt, haligned⟩
    exact ⟨⟨_, hostRead_legal hr hlegal⟩, ⟨_, hostWrite_legal hr hlegal⟩⟩
  · have hfault : accessFault off n = some .windowBusError := accessFault_window hge hill
    exact ⟨hostRead_fault hr hlt hfault, hostWrite_fault hr hlt hfault⟩
  · exact ⟨withAccess_outside hout n _, withAccess_outside hout n _⟩

/-- Settles O24: the data of a legal read, byte by byte. -/
theorem readsReturnTheStorageBytes : Obligations.ReadsReturnTheStorageBytes := by
  intro s off n hr hlegal
  have hn : n ≤ 4 := legalAccess_width hlegal
  refine ⟨s.readData off n, hostRead_legal hr hlegal, readData_lt s off hn, fun k hk => ?_⟩
  exact (wordByte_readData s off hn hk).trans (busByte_eq hr (off + k))

/-- Settles O25: one lemma per register and per buffer. -/
theorem windowHoldsRegistersAndBuffers : Obligations.WindowHoldsRegistersAndBuffers := by
  refine fun s hc => ⟨fun k hk => ⟨peek_cmd s hk, peek_status s hk, peek_inLen s hk, ?_, peek_outLen s hk⟩,
    fun i hi => peek_inBuf hc hi, fun i hi => peek_outBuf hc hi⟩
  rw [peek_inCtrl s hk, wordByte_inCtrlWord s.inNull hk]

/-- Settles O26: the layout field by field; the codes are `errKindCode` and `errCauseCode` as written. -/
theorem statusWordHasItsLayout : Obligations.StatusWordHasItsLayout :=
  ⟨statusWord_toNat, ⟨rfl, rfl, rfl, rfl, rfl, rfl⟩, rfl, rfl, rfl, rfl, rfl, rfl, rfl, rfl, rfl, rfl, rfl⟩

/-- Settles O27: one lemma per kind of access, and the inversion of a host event for the frame. -/
theorem busAccessesDoNotTouchTheSecrets : Obligations.BusAccessesDoNotTouchTheSecrets := by
  refine fun op s t key iv dir chain rk hop h => ⟨?_, (hostEvent_next h).secrets hop⟩
  cases op with
  | read addr n => exact memRead_withSecrets key iv dir chain rk h
  | write addr n v => exact memWrite_withSecrets key iv dir chain rk h
  | poll => exact pollTurn_withSecrets key iv dir chain rk h
  | reset level => exact absurd rfl (hop level)

/-- Settles O28: the read at offset 4 is STATUS, whose bit 0 is BUSY. -/
theorem pollGoesOnWhileBusy : Obligations.PollGoesOnWhileBusy := by
  intro s hr
  rw [hostEvent, pollTurn_next hr, pollAnswer, statusWord_bit_zero]
  cases s.status.busy <;> rfl

/-- Settles O15: while reset is asserted an access passes the checks at any width, and every byte is a free draw. -/
theorem accessesDuringResetHaveNoEffect : Obligations.AccessesDuringResetHaveNoEffect := by
  intro s off n v hr hoff
  have hwrite : memWrite (s.cfg.base + off) n v s = .next s := by
    rw [memWrite, withAccess_of (busOffset_base s.cfg hoff) (.inl hr), if_pos hr]
  have hdata : s.readData off n = leWord ((List.range n).map fun k => Config.freeByte s.draws (off + k)) := by
    simp only [State.readData, State.busByte, if_pos hr]
  refine ⟨hwrite, ?_⟩
  rw [hostEvent, memRead, withAccess_of (busOffset_base s.cfg hoff) (.inl hr), hdata]
  rfl

/-- Settles O10: the registers are read off the reset state, and its two buffers are empty. -/
theorem resetGivesTheSpecValues : Obligations.ResetGivesTheSpecValues := by
  refine ⟨fun c hc => ⟨statusWord_zero, rfl, inCtrlWord_false, rfl, rfl, rfl, rfl, rfl, fun k hk => peek_cmd _ hk,
    fun i hi => ?_, fun i hi => ?_⟩, rfl, rfl, rfl, rfl, rfl, rfl⟩
  · exact peek_inBuf (s := State.resetWith c) hc hi
  · exact peek_outBuf (s := State.resetWith c) hc hi

/-- Settles O53: OUT_BUF at capacity offsets is the buffer, laid out from the result. -/
theorem outBufHoldsTheResult : Obligations.OutBufHoldsTheResult := by
  intro s r i hc hi
  rw [peek_outBuf (s := { s with outBuf := Memory.ofBytes 0 r }) hc hi, Memory.read_ofBytes, if_pos i.zero_le,
    Nat.sub_zero]

end Sys2Proof.Machine

/-! PROOFS. From accept to completion (spec 45_commands.md R170, R171, 70_reset_and_hazards.md R237, R241): a command in
flight stays in flight, on its operand, under every host event but reset, so its completion step comes within the wait;
then the statements they settle. -/

namespace Sys2Proof.Machine

/-- A command is in flight, and the host's events to come do not touch the reset input. -/
structure State.InFlight (s : State) : Prop where
  seq : s.seq = .busy
  busy : s.status.busy = true
  reset : s.resetAsserted = false
  ops : ∀ op ∈ s.hostOps, ∀ level, op ≠ .reset level

/-- The same command is in flight on the same operand in both states (R237). -/
structure SameCommand (s t : State) : Prop where
  pend : t.pend = s.pend
  inLen : t.inLen = s.inLen
  inNull : t.inNull = s.inNull
  inBuf : t.inBuf = s.inBuf

theorem SameCommand.refl (s : State) : SameCommand s s := ⟨rfl, rfl, rfl, rfl⟩

theorem SameCommand.trans {s t u : State} (h : SameCommand s t) (h' : SameCommand t u) : SameCommand s u :=
  ⟨h'.pend.trans h.pend, h'.inLen.trans h.inLen, h'.inNull.trans h.inNull, h'.inBuf.trans h.inBuf⟩

/-- Under a host event other than the reset input's a command stays in flight, with its operand and its wait: an
accept and the stores need BUSY = 0. -/
theorem HostEffect.inFlight {op : HostOp} {s t : State} (he : HostEffect op s t) (h : s.InFlight)
    (hop : ∀ level, op ≠ .reset level) : t.InFlight ∧ SameCommand s t ∧ t.coreWait = s.coreWait := by
  have hbusy {p : Prop} (idle : s.status.busy = false) : p := absurd h.busy (ne_true_of_eq_false idle)
  cases he with
  | unchanged => exact ⟨h, .refl s, rfl⟩
  | answered addr n v => exact ⟨{ h with }, ⟨rfl, rfl, rfl, rfl⟩, rfl⟩
  | polledAgain addr n v =>
    exact ⟨{ h with ops := List.forall_mem_cons.2 ⟨nofun, h.ops⟩ }, ⟨rfl, rfl, rfl, rfl⟩, rfl⟩
  | dropped _ => exact ⟨{ h with }, ⟨rfl, rfl, rfl, rfl⟩, rfl⟩
  | accepted _ idle => exact hbusy idle
  | inLenStored _ idle => exact hbusy idle
  | inNullStored _ idle => exact hbusy idle
  | inBufStored _ _ idle => exact hbusy idle
  | resetRose event => exact absurd event (hop true)
  | resetFell event _ => exact absurd event (hop false)

/-- What `k` steps from `s` have come to: the completion step of the command in flight in `s`, on its operand, or a
stop of the run. -/
def CompletesOrStops (s : State) (k : Nat) : Prop :=
  (∃ t, Sys2Proof.core.run k s = .next t ∧ step t = exec (decodeWord s.pend) t ∧ SameCommand s t) ∨
  (∃ f, Sys2Proof.core.run k s = .fault f) ∨ (∃ r, Sys2Proof.core.run k s = .refused r)

/-- When the core's turn has come, the next step is the completion step. -/
theorem completesOrStops_zero {s : State} (hc : coreNext s = true) : CompletesOrStops s 0 :=
  .inl ⟨s, rfl, step_core hc, .refl s⟩

theorem completesOrStops_succ {s u : State} {k : Nat} (hstep : step s = .next u) (hsame : SameCommand s u)
    (h : CompletesOrStops u k) : CompletesOrStops s (k + 1) := by
  unfold CompletesOrStops
  rw [run_succ_next hstep]
  exact h.imp_left fun ⟨t, hrun, hexec, ht⟩ => ⟨t, hrun, hsame.pend ▸ hexec, hsame.trans ht⟩

/-- Fairness (R241), by induction on the wait: each host event takes one off it. -/
theorem State.InFlight.completesOrStops {wait : Nat} {s : State} (h : s.InFlight) (hwait : s.coreWait = wait) :
    ∃ k ≤ wait, CompletesOrStops s k := by
  induction wait generalizing s with
  | zero => exact ⟨0, le_rfl, completesOrStops_zero ((coreNext_iff s).2 ⟨h.seq, h.reset, .inl hwait⟩)⟩
  | succ wait ih =>
    cases ho : s.hostOps with
    | nil => exact ⟨0, Nat.zero_le _, completesOrStops_zero ((coreNext_iff s).2 ⟨h.seq, h.reset, .inr ho⟩)⟩
    | cons op rest =>
      have hhost : coreNext s = false := coreNext_false (.inr (.inr ⟨by omega, ho ▸ List.cons_ne_nil op rest⟩))
      have hstep : step s = hostEvent op (s.popped rest) := step_popped hhost ho
      obtain ⟨hop, hrest⟩ := List.forall_mem_cons.1 (ho ▸ h.ops)
      cases hevent : hostEvent op (s.popped rest) with
      | next u =>
        obtain ⟨hu, hsame, hwaitu⟩ := (hostEvent_next hevent).inFlight { h with ops := hrest } hop
        obtain ⟨k, hk, hend⟩ := ih hu (hwaitu.trans (Nat.sub_eq_of_eq_add hwait))
        exact ⟨k + 1, Nat.succ_le_succ hk, completesOrStops_succ (hstep.trans hevent) { hsame with } hend⟩
      | fault f => exact ⟨1, by omega, .inr (.inl ⟨f, (run_one s).trans (hstep.trans hevent)⟩)⟩
      | refused r => exact ⟨1, by omega, .inr (.inr ⟨r, (run_one s).trans (hstep.trans hevent)⟩)⟩

/-! ### The statements -/

/-- Settles O8: fairness from a state in flight. -/
theorem completionComesWithinTheWait : Obligations.CompletionComesWithinTheWait := by
  intro s hseq hbusy hr hops
  obtain ⟨k, hk, ⟨t, hrun, hexec, hsame⟩ | hstop⟩ := State.InFlight.completesOrStops ⟨hseq, hbusy, hr, hops⟩ rfl
  · exact ⟨k, hk, .inl ⟨t, hrun, hexec, hsame.pend, hsame.inLen, hsame.inNull, hsame.inBuf⟩⟩
  · exact ⟨k, hk, .inr hstop⟩

/-- Settles O9: the first step accepts the word, and with no event left the second is the core's. -/
theorem commandRunsFromItsWrite : Obligations.CommandRunsFromItsWrite := by
  intro s w hseq hidle hr ho
  have hwrite : step s = .next (accept w (s.popped [])) := by
    rw [step_popped (coreNext_false (.inl hseq)) ho, ← writeData_cmd_idle (s := s.popped []) hidle]
    exact hostWrite_legal (s := s.popped []) hr (by decide)
  refine ⟨_, (run_one s).trans hwrite, ?_, rfl, rfl, rfl, rfl, rfl⟩
  rw [run_succ_next hwrite, run_one]
  exact step_core ((coreNext_iff _).2 ⟨rfl, hr, .inr rfl⟩)

end Sys2Proof.Machine

/-! PROOFS. The cipher core forwards (spec 41_aes_cbc.md R114, R118, R120 to R124): the S-box pair, the key schedule's
recurrence, and CBC block by block; then the statements they settle. -/

namespace Sys2Proof.Machine

/-! ### The S-boxes (R114) -/

/-- R113's table undoes R114's, entry by entry. -/
theorem sbox_invSbox : ∀ a : Byte, sbox (invSbox a) = a := by decide +kernel

/-! ### The key schedule (R120) -/

theorem scheduleWord_append_left {ws vs : List Quad} {i : Nat} (h : i < ws.length) :
    scheduleWord (ws ++ vs) i = scheduleWord ws i := List.getD_append _ _ _ _ h

theorem scheduleWord_concat (ws : List Quad) (q : Quad) : scheduleWord (ws ++ [q]) ws.length = q := by
  simp [scheduleWord]

theorem scheduleWord_reverse {ws : List Quad} {i : Nat} (h : i < ws.length) :
    scheduleWord ws.reverse i = scheduleWord ws (ws.length - 1 - i) :=
  congrFun (List.getD_reverse i h) Quad.zero

/-- The schedule's words after `n` steps of the expansion, `w[0]` first. -/
def expandedWords (key : Bytes) (n : Nat) : List Quad :=
  ((List.range' (keyWords key) n).foldl (expandStep (keyWords key)) (keyPrefix key).reverse).reverse

theorem keyExpansion_eq (key : Bytes) :
    keyExpansion key = expandedWords key (4 * (keyRounds key + 1) - keyWords key) := rfl

theorem expandedWords_zero (key : Bytes) : expandedWords key 0 = keyPrefix key := List.reverse_reverse _

/-- A step puts one word behind those so far, from two entries of their reversed list. -/
theorem expandedWords_succ_reverse (key : Bytes) (n : Nat) :
    expandedWords key (n + 1) = expandedWords key n ++
      [expandWord (keyWords key) (keyWords key + n) (scheduleWord (expandedWords key n).reverse 0)
        (scheduleWord (expandedWords key n).reverse (keyWords key - 1))] := by
  simp only [expandedWords, List.range'_1_concat, List.foldl_append, List.foldl_cons, List.foldl_nil, expandStep,
    List.reverse_cons, List.reverse_reverse]

theorem expandedWords_length (key : Bytes) (n : Nat) : (expandedWords key n).length = keyWords key + n := by
  induction n with
  | zero => simp [expandedWords_zero, keyPrefix]
  | succ n ih =>
    rw [expandedWords_succ_reverse, List.length_append, ih, List.length_singleton, Nat.add_assoc]

/-- The new word, by the words at the indices of R120: entry 0 of the reversed list is `w[i-1]` and entry `Nk - 1` is
`w[i-Nk]`. -/
theorem expandedWords_succ {key : Bytes} (hk : 0 < keyWords key) (n : Nat) :
    expandedWords key (n + 1) = expandedWords key n ++
      [expandWord (keyWords key) (keyWords key + n) (scheduleWord (expandedWords key n) (keyWords key + n - 1))
        (scheduleWord (expandedWords key n) n)] := by
  have hlen : (expandedWords key n).length = keyWords key + n := expandedWords_length key n
  have hback : keyWords key + n - 1 - (keyWords key - 1) = n := by omega
  rw [expandedWords_succ_reverse, scheduleWord_reverse (by omega), scheduleWord_reverse (by omega), hlen,
    Nat.sub_zero, hback]

/-- The words of the list from `Nk` on are R120's, each from the word before it and the one `Nk` before it. -/
def FollowsRecurrence (nk : Nat) (ws : List Quad) : Prop :=
  ∀ i, nk ≤ i → i < ws.length → scheduleWord ws i = expandWord nk i (scheduleWord ws (i - 1)) (scheduleWord ws (i - nk))

theorem followsRecurrence_concat {nk : Nat} {ws : List Quad} (hk : 0 < nk) (h : FollowsRecurrence nk ws) :
    FollowsRecurrence nk (ws ++ [expandWord nk ws.length (scheduleWord ws (ws.length - 1))
      (scheduleWord ws (ws.length - nk))]) := by
  intro i hi hlt
  rw [List.length_append, List.length_singleton] at hlt
  rw [scheduleWord_append_left (i := i - 1) (by omega), scheduleWord_append_left (i := i - nk) (by omega)]
  obtain hold | rfl : i < ws.length ∨ i = ws.length := by omega
  · rw [scheduleWord_append_left hold, h i hi hold]
  · rw [scheduleWord_concat]

theorem expandedWords_followsRecurrence {key : Bytes} (hk : 0 < keyWords key) (n : Nat) :
    FollowsRecurrence (keyWords key) (expandedWords key n) := by
  induction n with
  | zero =>
    intro i hi hlt
    rw [expandedWords_length] at hlt
    omega
  | succ n ih =>
    have hnew := followsRecurrence_concat hk ih
    rw [expandedWords_length, Nat.add_sub_cancel_left] at hnew
    rw [expandedWords_succ hk]
    exact hnew

/-- The key stays at the front (R120). -/
theorem scheduleWord_expandedWords {key : Bytes} (n : Nat) {i : Nat} (hi : i < keyWords key) :
    scheduleWord (expandedWords key n) i = scheduleWord (keyPrefix key) i := by
  induction n with
  | zero => rw [expandedWords_zero]
  | succ n ih =>
    rw [expandedWords_succ_reverse, scheduleWord_append_left (by rw [expandedWords_length]; omega), ih]

theorem scheduleWord_keyPrefix {key : Bytes} {i : Nat} (hi : i < keyWords key) :
    scheduleWord (keyPrefix key) i =
      ⟨key.getD (4 * i) 0, key.getD (4 * i + 1) 0, key.getD (4 * i + 2) 0, key.getD (4 * i + 3) 0⟩ := by
  simp [scheduleWord, keyPrefix, List.getElem?_range hi]

theorem keyExpansion_length (key : Bytes) : (keyExpansion key).length = 4 * (keyRounds key + 1) := by
  rw [keyExpansion_eq, expandedWords_length]
  unfold keyRounds
  omega

theorem keyWords_pos {key : Bytes} (h : keyLenValid key = true) : 0 < keyWords key := by
  unfold keyWords
  obtain h | h | h := (keyLenValid_iff key).1 h <;> omega

/-! ### CBC (R123, R124) -/

/-- The block before block `j` of `b`: the IV before the first (R123, R124). -/
def previousBlock (iv b : Bytes) (j : Nat) : Block := if j = 0 then loadBlock iv else loadBlock (b.drop (16 * (j - 1)))

theorem previousBlock_eq {iv b : Bytes} {j : Nat} (h : j < b.length / 16) :
    (loadBlock iv :: toBlocks b)[j]? = some (previousBlock iv b j) := by
  cases j with
  | zero => rfl
  | succ j => exact toBlocks_getElem? b j (by omega)

/-- Block `j` of the encryption loop, from block `j` of the text and the one of the ciphertext before it (R123). -/
theorem cbcEncBlocks_getElem? {w : List Quad} {nr : Nat} {chain p c : Block} {ps : List Block} {j : Nat}
    (hp : ps[j]? = some p) (hc : (chain :: cbcEncBlocks w nr chain ps)[j]? = some c) :
    (cbcEncBlocks w nr chain ps)[j]? = some (cipher w nr (blockXor p c)) := by
  induction ps generalizing chain j with
  | nil => cases hp
  | cons q ps ih =>
    cases j with
    | zero =>
      cases hp
      cases hc
      rfl
    | succ j => exact ih hp hc

/-- Block `j` of the decryption loop, from block `j` of the ciphertext and the one before it (R124). -/
theorem cbcDecBlocks_getElem? {w : List Quad} {nr : Nat} {chain c d : Block} {cs : List Block} {j : Nat}
    (hc : cs[j]? = some c) (hd : (chain :: cs)[j]? = some d) :
    (cbcDecBlocks w nr chain cs)[j]? = some (blockXor (invCipher w nr c) d) := by
  induction cs generalizing chain j with
  | nil => cases hc
  | cons q cs ih =>
    cases j with
    | zero =>
      cases hc
      cases hd
      rfl
    | succ j => exact ih hc hd

theorem loadBlock_ofBlocks_drop {bs : List Block} {j : Nat} {s : Block} (h : bs[j]? = some s) :
    loadBlock ((ofBlocks bs).drop (16 * j)) = s := by
  obtain ⟨hj, -⟩ := List.getElem?_eq_some_iff.1 h
  have hlen : j < (ofBlocks bs).length / 16 := by
    rw [ofBlocks_length]
    omega
  have hload := toBlocks_getElem? (ofBlocks bs) j hlen
  rw [toBlocks_ofBlocks, h] at hload
  exact (Option.some.inj hload).symm

theorem loadBlock_cbcEnc (key iv : Bytes) {p : Bytes} {j : Nat} (h : j < p.length / 16) :
    loadBlock ((cbcEnc key iv p).drop (16 * j)) =
      cipher (keyExpansion key) (keyRounds key)
        (blockXor (loadBlock (p.drop (16 * j))) (previousBlock iv (cbcEnc key iv p) j)) := by
  have hlen : j < (cbcEnc key iv p).length / 16 := by
    rw [cbcEnc_length]
    omega
  have hprev := previousBlock_eq (iv := iv) hlen
  rw [show toBlocks (cbcEnc key iv p) = _ from toBlocks_ofBlocks _] at hprev
  exact loadBlock_ofBlocks_drop (cbcEncBlocks_getElem? (toBlocks_getElem? p j h) hprev)

theorem loadBlock_cbcDec (key iv : Bytes) {c : Bytes} {j : Nat} (h : j < c.length / 16) :
    loadBlock ((cbcDec key iv c).drop (16 * j)) =
      blockXor (invCipher (keyExpansion key) (keyRounds key) (loadBlock (c.drop (16 * j)))) (previousBlock iv c j) :=
  loadBlock_ofBlocks_drop (cbcDecBlocks_getElem? (toBlocks_getElem? c j h) (previousBlock_eq h))

/-! ### The statements -/

/-- Settles O35: each table undoes the other, entry by entry. -/
theorem invSboxUndoesSbox : Obligations.InvSboxUndoesSbox := by
  refine ⟨invSbox_sbox, sbox_invSbox, ?_, ?_, ?_⟩ <;> decide

/-- Settles O37: column by column, the product of the two matrices is the identity. -/
theorem invMixColumnsUndoesMixColumns : Obligations.InvMixColumnsUndoesMixColumns :=
  ⟨invMixColumns_mixColumns, by decide⟩

/-- Settles O38, by induction on the steps of the expansion; the example words are computed. -/
theorem keyExpansionFollowsItsRecurrence : Obligations.KeyExpansionFollowsItsRecurrence := by
  refine ⟨fun key hvalid => ⟨keyExpansion_length key, fun i hi => ?_, fun i hi hlt => ?_⟩, ?_⟩
  · rw [keyExpansion_eq, scheduleWord_expandedWords _ hi, scheduleWord_keyPrefix hi]
  · exact expandedWords_followsRecurrence (keyWords_pos hvalid) _ i hi ((keyExpansion_length key).symm ▸ hlt)
  · decide +kernel

/-- Settles O39: round by round from the inside. -/
theorem invCipherUndoesCipher : Obligations.InvCipherUndoesCipher := invCipher_cipher

/-- Settles O40: both loops keep the number of blocks, and block `j` is the loop's at its index. -/
theorem cbcChainsBlockByBlock : Obligations.CbcChainsBlockByBlock := by
  intro key iv p hp
  have hwhole : 16 * (p.length / 16) = p.length := by omega
  refine ⟨?_, ?_, fun j hj => ⟨loadBlock_cbcEnc key iv hj, loadBlock_cbcDec key iv hj⟩⟩
  · rw [cbcEnc_length, hwhole]
  · rw [cbcDec_length, hwhole]

/-- Settles O42: three runs of Cipher on literals. -/
theorem cipherGivesTheKnownAnswers : Obligations.CipherGivesTheKnownAnswers := by
  refine ⟨?_, ?_, ?_⟩ <;> decide +kernel

end Sys2Proof.Machine

/-! PROOFS. hexToBytes, its checks in order (spec 42_hex.md R153): the pairs of characters decode together or not at
all; then the statement they settle. -/

namespace Sys2Proof.Machine

/-- Pair `i` of the characters of `s` holds an invalid one (R151, R153). -/
def BadPair (s : Bytes) (i : Nat) : Prop := hexVal (s.getD (2 * i) 0) = none ∨ hexVal (s.getD (2 * i + 1) 0) = none

theorem cons_cons_pairs (hi lo : Byte) (s : Bytes) : (hi :: lo :: s).length / 2 = s.length / 2 + 1 := by
  simp only [List.length_cons]
  omega

theorem hexPairs_cons_bad {hi lo : Byte} {s : Bytes} (h : BadPair (hi :: lo :: s) 0) :
    hexPairs (hi :: lo :: s) = none := by
  obtain h | h : hexVal hi = none ∨ hexVal lo = none := h
  · simp only [hexPairs, h]
  · cases hh : hexVal hi <;> simp only [hexPairs, hh, h]

/-- A pair with an invalid character fails the whole string. -/
theorem hexPairs_eq_none : ∀ (s : Bytes) {i : Nat}, i < s.length / 2 → BadPair s i → hexPairs s = none
  | [], _, hi, _ => absurd hi (Nat.not_lt_zero _)
  | [_], _, hi, _ => absurd hi (by simp)
  | hi :: lo :: s, 0, _, hbad => hexPairs_cons_bad hbad
  | hi :: lo :: s, i + 1, hlt, hbad => by
    rw [cons_cons_pairs] at hlt
    have hrest : hexPairs s = none := hexPairs_eq_none s (Nat.lt_of_succ_lt_succ hlt) hbad
    cases hh : hexVal hi with
    | none => exact hexPairs_cons_bad (.inl hh)
    | some h =>
      cases hl : hexVal lo with
      | none => exact hexPairs_cons_bad (.inr hl)
      | some l => rw [hexPairs_cons hh hl, hrest, Option.map_none]

/-- Two nibbles side by side do not carry. -/
theorem pair_toNat {hi lo h l : Byte} (hh : hexVal hi = some h) (hl : hexVal lo = some l) :
    (16 * h + l).toNat = 16 * h.toNat + l.toNat := by
  have hhlt : h.toNat < 16 := hexVal_lt hh
  have hllt : l.toNat < 16 := hexVal_lt hl
  bv_omega

/-- The value of pair `i` (R153). -/
def pairValue (s : Bytes) (i : Nat) : Nat :=
  16 * ((hexVal (s.getD (2 * i) 0)).getD 0).toNat + ((hexVal (s.getD (2 * i + 1) 0)).getD 0).toNat

/-- Without an invalid character every pair gives the byte of its value. -/
theorem exists_hexPairs_eq_some_pairValue : ∀ s : Bytes, (∀ i < s.length / 2, ¬ BadPair s i) →
    ∃ b, hexPairs s = some b ∧ ∀ i < s.length / 2, (b.getD i 0).toNat = pairValue s i
  | [], _ => ⟨[], rfl, fun _ hi => absurd hi (Nat.not_lt_zero _)⟩
  | [_], _ => ⟨[], rfl, fun _ hi => absurd hi (by simp)⟩
  | hi :: lo :: s, hgood => by
    rw [cons_cons_pairs] at hgood ⊢
    have hfirst : hexVal hi ≠ none ∧ hexVal lo ≠ none := not_or.1 (hgood 0 (Nat.succ_pos _))
    obtain ⟨h, hh⟩ := Option.ne_none_iff_exists'.1 hfirst.1
    obtain ⟨l, hl⟩ := Option.ne_none_iff_exists'.1 hfirst.2
    obtain ⟨b, hb, hvalue⟩ := exists_hexPairs_eq_some_pairValue s fun i hi => hgood (i + 1) (Nat.succ_lt_succ hi)
    refine ⟨(16 * h + l) :: b, ?_, fun i hlt => ?_⟩
    · rw [hexPairs_cons hh hl, hb, Option.map_some]
    · cases i with
      | zero =>
        have hpair : pairValue (hi :: lo :: s) 0 = 16 * h.toNat + l.toNat := by simp [pairValue, hh, hl]
        rw [hpair]
        exact pair_toNat hh hl
      | succ i => exact hvalue i (Nat.lt_of_succ_lt_succ hlt)

theorem hexToBytes_failOdd {s : Bytes} (hlen : 2 ≤ s.length) (hodd : s.length % 2 = 1) :
    hexToBytes .reject (some s) = .failOdd := by
  simp [hexToBytes, Nat.not_lt.2 hlen, hodd]

/-- Past the length checks the digits decide (R153). -/
theorem hexToBytes_pairs {o : OddHex} {s : Bytes} (hlen : 2 ≤ s.length) (hpass : s.length % 2 = 0 ∨ o = .truncate) :
    hexToBytes o (some s) = (hexPairs s).elim .failDigit .ok := by
  have hodd : ¬ (s.length % 2 = 1 ∧ o = .reject) := by
    rintro ⟨hodd, rfl⟩
    simp [hodd] at hpass
  rw [hexToBytes, if_neg (Nat.not_lt.2 hlen), if_neg hodd]
  cases hexPairs s <;> rfl

/-- Settles O33: the length checks in order, then the pairs. -/
theorem hexToBytesChecksInOrder : Obligations.HexToBytesChecksInOrder := by
  refine fun o => ⟨rfl, fun s => ⟨hexToBytes_short o, ?_, fun hlen hpass => ⟨?_, fun hgood => ?_⟩⟩⟩
  · rintro hlen hodd rfl
    exact hexToBytes_failOdd hlen hodd
  · rintro ⟨i, hi, hbad⟩
    rw [hexToBytes_pairs hlen hpass, hexPairs_eq_none s hi hbad, Option.elim_none]
  · obtain ⟨b, hb, hvalue⟩ := exists_hexPairs_eq_some_pairValue s fun i hi => not_or.2 (hgood i hi)
    refine ⟨b, ?_, hexPairs_length s b hb, hvalue⟩
    rw [hexToBytes_pairs hlen hpass, hb, Option.elim_some]

end Sys2Proof.Machine

/-! PROOFS. The commands of the cipher core and what every command keeps (spec 45_commands.md R171 to R179): one lemma
per way ENCODE and DECODE end, the frame of a completion, and what no command's end depends on; then the statements
they settle. -/

namespace Sys2Proof.Machine

/-! ### The cipher initialisation (R125 to R127) -/

theorem initCipher_keyLen {s : State} (d : Dir)
    (hkey : ¬ (s.key.length = 16 ∨ s.key.length = 24 ∨ s.key.length = 32)) : initCipher d s = .error .keyLen := by
  rw [← keyLenValid_iff] at hkey
  exact if_pos (Bool.eq_false_iff.2 hkey)

theorem initCipher_ivLen {s : State} (d : Dir)
    (hkey : s.key.length = 16 ∨ s.key.length = 24 ∨ s.key.length = 32) (hiv : s.iv.length ≠ 16) :
    initCipher d s = .error .ivLen := by
  rw [initCipher, (keyLenValid_iff s.key).2 hkey, if_neg Bool.false_ne_true.symm, if_pos hiv]

theorem initCipher_ok {s : State} (d : Dir)
    (hkey : s.key.length = 16 ∨ s.key.length = 24 ∨ s.key.length = 32) (hiv : s.iv.length = 16) :
    initCipher d s = .ok (s.engineSet d) := by
  rw [initCipher, (keyLenValid_iff s.key).2 hkey, if_neg Bool.false_ne_true.symm, if_neg (not_not.2 hiv)]
  rfl

/-! ### The operand (R172) -/

theorem input_zero {s : State} (hpresent : s.inNull = false) (hzero : s.inLen = 0) : s.input = some [] := by
  have hlen : s.inBytes.length = 0 := by rw [inBytes_length, hzero]; rfl
  rw [input_present hpresent, List.length_eq_zero_iff.1 hlen]

/-- The command has the present, nonempty operand `t`, within capacity (R172). -/
structure State.Holds (s : State) (t : Bytes) : Prop where
  input : s.input = some t
  nonempty : t ≠ []
  fits : t.length ≤ s.cfg.nIn

theorem State.Holds.length_ne_zero {s : State} {t : Bytes} (h : s.Holds t) : ¬ t.length = 0 :=
  fun h0 => h.nonempty (List.length_eq_zero_iff.1 h0)

theorem State.Holds.inRange {s : State} {t : Bytes} (h : s.Holds t) : s.lenOutOfRange = false :=
  lenOutOfRange_fits h.input h.fits

/-! ### ENCODE (R173) -/

theorem exec_encode_outOfRange {s : State} (h : s.lenOutOfRange = true) :
    exec .encode s = .next (s.failed .cmd .lenRange) := by
  rw [exec, execEncode, withInput_fail h, errorState_eq_failed]

theorem exec_encode_null {s : State} (h : s.inNull = true) :
    exec .encode s = .next (s.failed .emptyInput .nullInput) := by
  rw [exec, execEncode, withInput_ok (lenOutOfRange_null h), input_null h]
  rfl

theorem exec_encode_empty {s : State} (h : s.input = some []) :
    exec .encode s = .next (s.failed .emptyInput .zeroLen) := by
  rw [exec, execEncode, withInput_ok (lenOutOfRange_fits h (Nat.zero_le _)), h]
  rfl

theorem exec_encode_initFails {s : State} {t : Bytes} {cause : ErrCause} (h : s.Holds t)
    (hinit : initCipher .enc s = .error cause) : exec .encode s = .next (s.failed .encrypt cause) := by
  rw [exec, execEncode, withInput_ok h.inRange, h.input]
  simp only [if_neg h.length_ne_zero, hinit]
  rfl

/-- The state after the success of ENCODE on the text `t`: R178's, on the engine that CBC_Enc leaves (R123, R173). -/
def State.encoded (s : State) (t : Bytes) : State :=
  State.succeeded (some (bytesToHex (cbcEnc s.key s.iv (pad t))))
    { s.engineSet .enc with chain := lastChain s.iv (cbcEnc s.key s.iv (pad t)) }

theorem exec_encode_succeeds {s : State} {t : Bytes} (h : s.Holds t)
    (hkey : s.key.length = 16 ∨ s.key.length = 24 ∨ s.key.length = 32) (hiv : s.iv.length = 16) :
    exec .encode s = .next (s.encoded t) := by
  rw [exec, execEncode, withInput_ok h.inRange, h.input]
  simp only [if_neg h.length_ne_zero, initCipher_ok .enc hkey hiv]
  rfl

/-- ENCODE's ciphertext has a block for each whole block of the text and one more (R102, R123). -/
theorem cbcEnc_pad_length (key iv t : Bytes) : (cbcEnc key iv (pad t)).length = 16 * (t.length / 16 + 1) := by
  rw [cbcEnc_length, pad_length]
  omega

/-- CHAIN after ENCODE: block `|t| div 16` of the ciphertext is its last (R123). -/
theorem encoded_chain (s : State) (t : Bytes) :
    (s.encoded t).chain = loadBlock ((cbcEnc s.key s.iv (pad t)).drop (16 * (t.length / 16))) := by
  have hlen : (cbcEnc s.key s.iv (pad t)).length = 16 * (t.length / 16 + 1) := cbcEnc_pad_length s.key s.iv t
  have hlast : (cbcEnc s.key s.iv (pad t)).length / 16 - 1 = t.length / 16 := by omega
  rw [← hlast]
  exact lastChain_eq _ _ (by omega)

theorem encoded_outLen (s : State) (t : Bytes) :
    (s.encoded t).outLen = BitVec.ofNat 32 (32 * (t.length / 16 + 1)) :=
  congrArg (BitVec.ofNat 32) (encode_result_length s.key s.iv t)

/-! ### DECODE (R174) -/

theorem exec_decode_outOfRange {s : State} (h : s.lenOutOfRange = true) :
    exec .decode s = .next (s.failed .cmd .lenRange) := by
  rw [exec, execDecode, withInput_fail h, errorState_eq_failed]

theorem exec_decode_null {s : State} (h : s.inNull = true) :
    exec .decode s = .next (s.failed .emptyInput .nullInput) := by
  rw [exec, execDecode, withInput_ok (lenOutOfRange_null h), input_null h]
  rfl

theorem exec_decode_empty {s : State} (h : s.input = some []) :
    exec .decode s = .next (s.failed .emptyInput .zeroLen) := by
  rw [exec, execDecode, withInput_ok (lenOutOfRange_fits h (Nat.zero_le _)), h]
  rfl

/-- DECODE from the result of hexToBytes on (R174). -/
def decodeHexResult (s : State) : HexResult → Outcome State Fault Refusal
  | .failOdd => raiseError .decrypt .hexOdd s
  | .failDigit => raiseError .decrypt .hexDigit s
  | .absent => withDecrypt s decodeAbsent
  | .ok c => withDecrypt s (decodeCiphertext c)

theorem exec_decode_text {s : State} {t : Bytes} (h : s.Holds t) :
    exec .decode s = decodeHexResult s (hexToBytes s.cfg.oddHex (some t)) := by
  rw [exec, execDecode, withInput_ok h.inRange, h.input]
  simp only [if_neg h.length_ne_zero]
  cases hexToBytes s.cfg.oddHex (some t) <;> rfl

theorem withDecrypt_error {s : State} {cause : ErrCause} (hinit : initCipher .dec s = .error cause)
    (k : State → Outcome State Fault Refusal) : withDecrypt s k = .next (s.failed .decrypt cause) := by
  rw [withDecrypt, hinit]
  rfl

theorem withDecrypt_ok {s u : State} (hinit : initCipher .dec s = .ok u)
    (k : State → Outcome State Fault Refusal) : withDecrypt s k = k u := by
  rw [withDecrypt, hinit]

/-- A byte string or ABSENT comes to the cipher initialisation, and fails with it. -/
theorem decodeHexResult_initFails {s : State} {r : HexResult} {cause : ErrCause} (hodd : r ≠ .failOdd)
    (hdigit : r ≠ .failDigit) (hinit : initCipher .dec s = .error cause) :
    decodeHexResult s r = .next (s.failed .decrypt cause) := by
  cases r with
  | failOdd => exact absurd rfl hodd
  | failDigit => exact absurd rfl hdigit
  | absent => exact withDecrypt_error hinit _
  | ok c => exact withDecrypt_error hinit _

theorem decodeCiphertext_misaligned {c : Bytes} (h : c.length % 16 ≠ 0) (s : State) :
    decodeCiphertext c s = .next (s.failed .decrypt .blockAlign) := if_pos h

theorem decodeAbsent_error {s : State} (h : s.cfg.shortDecode = .error) :
    decodeAbsent s = .next (s.failed .decrypt .noData) := by
  rw [decodeAbsent, h]
  rfl

/-- The state after the success of DECODE on the byte string `c`: R178's, on the engine that CBC_Dec leaves (R124,
R174). -/
def State.decoded (s : State) (c : Bytes) : State :=
  State.succeeded (some (cbcDec s.key s.iv c)) { s.engineSet .dec with chain := lastChain s.iv c }

theorem decodeCiphertext_aligned {c : Bytes} (h : c.length % 16 = 0) (s : State) :
    decodeCiphertext c (s.engineSet .dec) = .next (s.decoded c) := if_neg (not_not.2 h)

/-- The empty byte string has no block: the engine stays as it was initialised (R124). -/
theorem decodeAbsent_empty {s : State} (h : s.cfg.shortDecode = .empty) :
    decodeAbsent (s.engineSet .dec) = .next ((s.engineSet .dec).succeeded (some [])) := by
  have hshort : (s.engineSet .dec).cfg.shortDecode = .empty := h
  rw [decodeAbsent, hshort]
  rfl

theorem exec_decode_succeeds {s : State} {t c : Bytes} (h : s.Holds t)
    (hkey : s.key.length = 16 ∨ s.key.length = 24 ∨ s.key.length = 32) (hiv : s.iv.length = 16)
    (hhex : hexToBytes s.cfg.oddHex (some t) = .ok c) (hc : c.length % 16 = 0) :
    exec .decode s = .next (s.decoded c) := by
  rw [exec_decode_text h, hhex, decodeHexResult, withDecrypt_ok (initCipher_ok .dec hkey hiv),
    decodeCiphertext_aligned hc]

theorem cbcDec_length_of_blocks (key iv : Bytes) {c : Bytes} (h : c.length % 16 = 0) :
    (cbcDec key iv c).length = c.length := by
  rw [cbcDec_length]
  omega

theorem decoded_chain (s : State) {c : Bytes} (h : c.length % 16 = 0) (hpos : 0 < c.length) :
    (s.decoded c).chain = loadBlock (c.drop (c.length - 16)) := by
  have hlast : 16 * (c.length / 16 - 1) = c.length - 16 := by omega
  rw [← hlast]
  exact lastChain_eq _ _ (by omega)

/-! ### The four commands and the length check (R172) -/

theorem exec_outOfRange {s : State} {i : Instr} (hi : i = .encode ∨ i = .decode ∨ i = .hexEnc ∨ i = .hexDec)
    (h : s.lenOutOfRange = true) : exec i s = .next (s.failed .cmd .lenRange) := by
  obtain rfl | rfl | rfl | rfl := hi
  · exact exec_encode_outOfRange h
  · exact exec_decode_outOfRange h
  · exact exec_hexEnc_outOfRange h
  · exact exec_hexDec_outOfRange h

/-- Where a command ends when its input is ABSENT (R172 to R177). -/
def State.endOnNull (s : State) : Instr → State
  | .encode => s.failed .emptyInput .nullInput
  | .decode => s.failed .emptyInput .nullInput
  | .hexEnc => s.succeeded none
  | .hexDec => s.succeeded none
  | .illegal _ _ => s.failed .cmd .illegalOp

theorem exec_null {s : State} (i : Instr) (h : s.inNull = true) : exec i s = .next (s.endOnNull i) := by
  cases i with
  | encode => exact exec_encode_null h
  | decode => exact exec_decode_null h
  | hexEnc => rw [exec_hexEnc_inRange (lenOutOfRange_null h), input_null h]; rfl
  | hexDec => rw [exec_hexDec_inRange (lenOutOfRange_null h), input_null h]; rfl
  | illegal rsvd opcode => exact exec_illegal rsvd opcode s

theorem endOnNull_inLen (s : State) (i : Instr) (v : Word) :
    State.endOnNull { s with inLen := v } i = { s.endOnNull i with inLen := v } := by
  cases i <;> rfl

/-! ### What a completion sets and what it leaves (R178, R179) -/

/-- No command writes more than R178, R179 and the cipher engine's registers. -/
theorem Ends.frame {i : Instr} {s t : State} (h : Ends i s t) :
    t = { s with
      status := t.status, outLen := t.outLen, outBuf := t.outBuf, seq := t.seq, dir := t.dir, chain := t.chain
      rk := t.rk, draws := s.draws + 1 } := by
  cases h with
  | failed _ _ _ _ engine => obtain rfl | ⟨d, -, rfl⟩ := engine <;> rfl
  | completed _ _ _ engine => obtain rfl | ⟨d, ch, -, rfl⟩ := engine <;> rfl

theorem Ends.input {i : Instr} {s t : State} (h : Ends i s t) :
    t.inLen = s.inLen ∧ t.inNull = s.inNull ∧ t.inBuf = s.inBuf := by
  rw [h.frame]
  exact ⟨rfl, rfl, rfl⟩

/-- Only ENCODE and DECODE write the cipher engine. -/
theorem Ends.engine {i : Instr} {s t : State} (h : Ends i s t) (henc : i ≠ .encode) (hdec : i ≠ .decode) :
    t.dir = s.dir ∧ t.chain = s.chain ∧ t.rk = s.rk := by
  have hno : ¬ (i = .encode ∨ i = .decode) := not_or.2 ⟨henc, hdec⟩
  cases h with
  | failed _ _ _ _ engine =>
    obtain rfl | ⟨d, hi, -⟩ := engine
    · exact ⟨rfl, rfl, rfl⟩
    · exact absurd hi hno
  | completed _ _ _ engine =>
    obtain rfl | ⟨d, ch, hi, -⟩ := engine
    · exact ⟨rfl, rfl, rfl⟩
    · exact absurd hi hno

/-- The fields of STATUS that every completion sets, and those it keeps (R178, R179). -/
theorem Ends.status {i : Instr} {s t : State} (h : Ends i s t) :
    t.seq = .idle ∧ t.status.busy = false ∧ t.status.done = true ∧
      t.status.ovr = s.status.ovr ∧ t.status.lastOp = s.status.lastOp := by
  cases h with
  | failed _ _ _ _ engine => obtain rfl | ⟨d, -, rfl⟩ := engine <;> exact ⟨rfl, rfl, rfl, rfl, rfl⟩
  | completed _ _ _ engine => obtain rfl | ⟨d, ch, -, rfl⟩ := engine <;> exact ⟨rfl, rfl, rfl, rfl, rfl⟩

theorem Ends.codes {i : Instr} {s t : State} (h : Ends i s t) :
    (t.status.err = false → t.status.errKind = .none ∧ t.status.errCause = .none) ∧
    (t.status.err = true → t.status.errKind ≠ .none ∧ t.status.errCause ≠ .none ∧ t.status.outNull = true) := by
  cases h with
  | failed k c u pair _ =>
    obtain ⟨hkind, hcause⟩ := errorPairs_ne_none pair
    exact ⟨nofun, fun _ => ⟨hkind, hcause, rfl⟩⟩
  | completed _ _ _ _ => exact ⟨fun _ => ⟨rfl, rfl⟩, nofun⟩

theorem Ends.outLen_of_null {i : Instr} {s t : State} (h : Ends i s t) (hnull : t.status.outNull = true) :
    t.outLen = 0 := by
  cases h with
  | failed _ _ _ _ _ => rfl
  | completed r u _ _ =>
    obtain rfl : r = none := Option.isNone_iff_eq_none.1 hnull
    rfl

/-- The result fits OUT_BUF, and no byte beyond it is specified (R28, R178; log 10). -/
theorem Ends.outBuf {i : Instr} {s t : State} (h : Ends i s t) (hc : s.cfg.wf) :
    t.outLen.toNat ≤ t.cfg.nOut ∧ ∀ k, t.outLen.toNat ≤ k → t.outBuf.read k = none := by
  obtain ⟨hcfg, -, -⟩ := h.cfg_key_iv
  rw [hcfg]
  cases h with
  | failed _ _ _ _ _ => exact ⟨Nat.zero_le _, fun _ _ => rfl⟩
  | completed r u fits _ =>
    rw [okState_outLen_toNat hc (fits hc)]
    refine ⟨fits hc, fun k hk => ?_⟩
    rw [okState_outBuf, Memory.read_ofBytes, if_pos k.zero_le, Nat.sub_zero, List.getElem?_eq_none hk]

/-! ### The window outside STATUS, OUT_LEN and OUT_BUF -/

/-- The registers CMD, IN_LEN and IN_CTRL hold what they held if the input registers do. -/
theorem peek_register_congr {s t : State} {off : Nat} (hin : off < 0x4 ∨ (0x8 ≤ off ∧ off < 0x10))
    (hlen : t.inLen = s.inLen) (hnull : t.inNull = s.inNull) : t.peek off = s.peek off := by
  have hword : registerWord t off = registerWord s off := by
    unfold registerWord
    rw [hlen, hnull]
    obtain h | ⟨hge, hlt⟩ := hin
    · rw [if_pos h, if_pos h]
    · rw [if_neg (show ¬ off < 0x8 by omega), if_neg (show ¬ off < 0x8 by omega), if_pos hlt, if_pos hlt]
  simp only [State.peek, region_register (show off < 0x14 by omega), hword]

theorem peek_inWindow_congr {s t : State} {off : Nat} (hge : 0x10000 ≤ off) (hlt : off < 0x20000)
    (hcfg : t.cfg = s.cfg) (hbuf : t.inBuf = s.inBuf) : t.peek off = s.peek off := by
  simp only [State.peek, region_inWindow hge hlt, hcfg, hbuf]

/-- What the window holds outside STATUS, OUT_LEN and OUT_BUF depends on the parameters and the input only. -/
theorem peek_congr {s t : State} (hcfg : t.cfg = s.cfg) (hlen : t.inLen = s.inLen) (hnull : t.inNull = s.inNull)
    (hbuf : t.inBuf = s.inBuf) {off : Nat}
    (hoff : off < 0x4 ∨ (0x8 ≤ off ∧ off < 0x10) ∨ (0x14 ≤ off ∧ off < 0x20000) ∨ 0x20000 + s.cfg.nOut ≤ off) :
    t.peek off = s.peek off := by
  by_cases hreg : off < 0x14
  · exact peek_register_congr (by omega) hlen hnull
  by_cases hres : off < 0x10000 ∨ 0x30000 ≤ off
  · rw [peek_reserved t (by omega), peek_reserved s (by omega)]
  by_cases hin : off < 0x20000
  · exact peek_inWindow_congr (by omega) hin hcfg hbuf
  · rw [peek_outTail (s := s) (by omega) (by omega), peek_outTail (s := t) (by rw [hcfg]; omega) (by omega)]

/-! ### Two runs that differ in the secrets (R125, R175 to R177) -/

section Secrets

variable {s t : State} (key iv : Bytes) (dir : Dir) (chain : Block) (rk : List Quad)

theorem hexDecoded_withSecrets (r : HexResult) :
    (s.withSecrets key iv dir chain rk).hexDecoded r = (s.hexDecoded r).withSecrets key iv dir chain rk := by
  cases r <;> rfl

theorem exec_hexEnc_withSecrets (h : exec .hexEnc s = .next t) :
    exec .hexEnc (s.withSecrets key iv dir chain rk) = .next (t.withSecrets key iv dir chain rk) := by
  cases hlen : s.lenOutOfRange with
  | true =>
    rw [exec_hexEnc_outOfRange hlen] at h
    rw [exec_hexEnc_outOfRange (s := s.withSecrets key iv dir chain rk) hlen, ← next_inj h]
    rfl
  | false =>
    rw [exec_hexEnc_inRange hlen] at h
    rw [exec_hexEnc_inRange (s := s.withSecrets key iv dir chain rk) hlen, ← next_inj h]
    rfl

theorem exec_hexDec_withSecrets (h : exec .hexDec s = .next t) :
    exec .hexDec (s.withSecrets key iv dir chain rk) = .next (t.withSecrets key iv dir chain rk) := by
  cases hlen : s.lenOutOfRange with
  | true =>
    rw [exec_hexDec_outOfRange hlen] at h
    rw [exec_hexDec_outOfRange (s := s.withSecrets key iv dir chain rk) hlen, ← next_inj h]
    rfl
  | false =>
    rw [exec_hexDec_inRange hlen] at h
    rw [exec_hexDec_inRange (s := s.withSecrets key iv dir chain rk) hlen, hexDecoded_withSecrets, ← next_inj h]
    rfl

theorem exec_withSecrets {i : Instr} (henc : i ≠ .encode) (hdec : i ≠ .decode) (h : exec i s = .next t) :
    exec i (s.withSecrets key iv dir chain rk) = .next (t.withSecrets key iv dir chain rk) := by
  cases i with
  | encode => exact absurd rfl henc
  | decode => exact absurd rfl hdec
  | hexEnc => exact exec_hexEnc_withSecrets key iv dir chain rk h
  | hexDec => exact exec_hexDec_withSecrets key iv dir chain rk h
  | illegal rsvd opcode =>
    rw [exec_illegal] at h
    rw [exec_illegal, ← next_inj h]
    rfl

end Secrets

/-- The same state with another cipher engine. -/
def State.withEngine (dir : Dir) (chain : Block) (rk : List Quad) (s : State) : State :=
  s.withSecrets s.key s.iv dir chain rk

/-- Two commands' ends agree, but for the engine of a failure that came before the initialisation: each fails the same
way on its own state, or both are the same. -/
def SameEnd (s s' : State) (o o' : Outcome State Fault Refusal) : Prop :=
  (∃ k c, o = .next (s.failed k c) ∧ o' = .next (s'.failed k c)) ∨ o' = o

section Engine

variable {s t : State} (dir : Dir) (chain : Block) (rk : List Quad)

/-- The initialisation overwrites the engine (R125). -/
theorem initCipher_withEngine (d : Dir) : initCipher d (s.withEngine dir chain rk) = initCipher d s := rfl

theorem withInput_sameEnd {k k' : Option Bytes → Outcome State Fault Refusal}
    (hk : SameEnd s (s.withEngine dir chain rk) (k s.input) (k' s.input)) :
    SameEnd s (s.withEngine dir chain rk) (withInput s k) (withInput (s.withEngine dir chain rk) k') := by
  cases h : s.lenOutOfRange with
  | true =>
    exact .inl ⟨.cmd, .lenRange, withInput_fail h, withInput_fail (s := s.withEngine dir chain rk) h⟩
  | false =>
    rw [withInput_ok h, withInput_ok (s := s.withEngine dir chain rk) h]
    exact hk

theorem withDecrypt_sameEnd (k : State → Outcome State Fault Refusal) :
    SameEnd s (s.withEngine dir chain rk) (withDecrypt s k) (withDecrypt (s.withEngine dir chain rk) k) := by
  have hinit := initCipher_withEngine (s := s) dir chain rk .dec
  cases h : initCipher .dec s with
  | error cause => exact .inl ⟨_, _, withDecrypt_error h k, withDecrypt_error (hinit.trans h) k⟩
  | ok u => exact .inr ((withDecrypt_ok (hinit.trans h) k).trans (withDecrypt_ok h k).symm)

theorem execEncode_sameEnd :
    SameEnd s (s.withEngine dir chain rk) (execEncode s) (execEncode (s.withEngine dir chain rk)) := by
  refine withInput_sameEnd dir chain rk ?_
  cases s.input with
  | none => exact .inl ⟨_, _, rfl, rfl⟩
  | some text =>
    dsimp only
    rw [initCipher_withEngine]
    split
    · exact .inl ⟨_, _, rfl, rfl⟩
    · cases initCipher .enc s with
      | error cause => exact .inl ⟨_, _, rfl, rfl⟩
      | ok u => exact .inr rfl

theorem execDecode_sameEnd :
    SameEnd s (s.withEngine dir chain rk) (execDecode s) (execDecode (s.withEngine dir chain rk)) := by
  refine withInput_sameEnd dir chain rk ?_
  cases s.input with
  | none => exact .inl ⟨_, _, rfl, rfl⟩
  | some text =>
    have hcfg : (s.withEngine dir chain rk).cfg = s.cfg := rfl
    dsimp only
    rw [hcfg]
    split
    · exact .inl ⟨_, _, rfl, rfl⟩
    · cases hexToBytes s.cfg.oddHex (some text) with
      | failOdd => exact .inl ⟨_, _, rfl, rfl⟩
      | failDigit => exact .inl ⟨_, _, rfl, rfl⟩
      | absent => exact withDecrypt_sameEnd dir chain rk decodeAbsent
      | ok c => exact withDecrypt_sameEnd dir chain rk (decodeCiphertext c)

/-- Ends that agree show the host the same. -/
theorem SameEnd.results {o o' : Outcome State Fault Refusal} (h : SameEnd s (s.withEngine dir chain rk) o o')
    (ho : o = .next t) : ∃ u, o' = .next u ∧ u.status = t.status ∧ u.outLen = t.outLen ∧ u.outBuf = t.outBuf := by
  obtain ⟨k, c, hs, hs'⟩ | hsame := h
  · obtain rfl := next_inj (ho.symm.trans hs)
    exact ⟨_, hs', rfl, rfl, rfl⟩
  · exact ⟨t, hsame.trans ho, rfl, rfl, rfl⟩

end Engine

/-! ### ENCODE's output as DECODE's input -/

/-- The operand is the bytes that IN_BUF holds (R172). -/
theorem inBytes_eq {s : State} {b : Bytes} (hlen : s.inLen.toNat = b.length)
    (hread : ∀ i < b.length, s.inBuf.read i = b[i]?) : s.inBytes = b := by
  refine List.ext_getElem ((inBytes_length s).trans hlen) fun i _ hi => ?_
  simp only [State.inBytes, List.getElem_map, List.getElem_range, State.inByte, hread i hi, List.getElem?_eq_getElem hi,
    Option.getD_some]

/-- The hex of ENCODE's ciphertext decodes to it (R154): there is at least one block. -/
theorem hexToBytes_bytesToHex_cbcEnc (o : OddHex) (key iv t : Bytes) :
    hexToBytes o (some (bytesToHex (cbcEnc key iv (pad t)))) = .ok (cbcEnc key iv (pad t)) := by
  obtain ⟨hround, -⟩ := hexRoundTrips o
  exact hround _ (by rw [cbcEnc_pad_length]; omega)

theorem encoded_outLen_toNat {s : State} {t : Bytes} (hc : s.cfg.wf) (hfits : t.length ≤ s.cfg.nIn) :
    (s.encoded t).outLen.toNat = (bytesToHex (cbcEnc s.key s.iv (pad t))).length := by
  obtain ⟨-, -, -, hmax, -⟩ := hc
  refine succeeded_outLen_toNat ?_ _
  rw [encode_result_length]
  omega

/-! ### The statements -/

/-- Settles O43: the success of ENCODE, with OUT_LEN and CHAIN counted in blocks of the text. -/
theorem encodeCompletes : Obligations.EncodeCompletes := by
  intro s t hinput hne hfits _ hkey hiv
  rw [exec_encode_succeeds ⟨hinput, hne, hfits⟩ hkey hiv, ← encoded_outLen s t, ← encoded_chain s t]
  rfl

/-- Settles O44: the checks of ENCODE in their order. -/
theorem encodeErrorsComeInOrder : Obligations.EncodeErrorsComeInOrder := by
  refine fun s => ⟨exec_encode_null, fun hpresent hzero => exec_encode_empty (input_zero hpresent hzero), ?_⟩
  intro t hinput hne hfits
  exact ⟨fun hkey => exec_encode_initFails ⟨hinput, hne, hfits⟩ (initCipher_keyLen .enc hkey),
    fun hkey hiv => exec_encode_initFails ⟨hinput, hne, hfits⟩ (initCipher_ivLen .enc hkey hiv)⟩

/-- Settles O45: the success of DECODE on whole blocks, of which there is at least one; and ABSENT under EMPTY. -/
theorem decodeCompletes : Obligations.DecodeCompletes := by
  intro s t hinput hfits _ hkey hiv
  refine ⟨fun c hhex hc => ?_, fun hone hshort => ?_⟩
  · obtain ⟨-, hlen⟩ := hexToBytes_ok hhex
    have hclen : c.length = t.length / 2 := hexToBytes_ok_length hhex
    have hholds : s.Holds t := ⟨hinput, List.ne_nil_of_length_pos (by omega), hfits⟩
    rw [exec_decode_succeeds hholds hkey hiv hhex hc, ← decoded_chain s hc (by omega),
      ← cbcDec_length_of_blocks s.key s.iv hc]
    rfl
  · have hholds : s.Holds t := ⟨hinput, List.ne_nil_of_length_pos (by omega), hfits⟩
    rw [exec_decode_text hholds, hexToBytes_short _ (by omega), decodeHexResult,
      withDecrypt_ok (initCipher_ok .dec hkey hiv), decodeAbsent_empty hshort]

/-- Settles O46: the checks of DECODE in their order; past the initialisation the failures leave the engine set. -/
theorem decodeErrorsComeInOrder : Obligations.DecodeErrorsComeInOrder := by
  refine fun s => ⟨exec_decode_null, fun hpresent hzero => exec_decode_empty (input_zero hpresent hzero), ?_⟩
  intro t hinput hne hfits
  rw [exec_decode_text ⟨hinput, hne, hfits⟩]
  refine ⟨fun hodd => by rw [hodd]; rfl, fun hdigit => by rw [hdigit]; rfl, fun hodd hdigit => ⟨fun hkey => ?_,
    fun hkey hiv => ?_, fun hkey hiv => ⟨fun hone hshort => ?_, fun c hhex hc => ?_⟩⟩⟩
  · exact decodeHexResult_initFails hodd hdigit (initCipher_keyLen .dec hkey)
  · exact decodeHexResult_initFails hodd hdigit (initCipher_ivLen .dec hkey hiv)
  · rw [hexToBytes_short _ (by omega), decodeHexResult, withDecrypt_ok (initCipher_ok .dec hkey hiv)]
    exact decodeAbsent_error hshort
  · rw [hhex, decodeHexResult, withDecrypt_ok (initCipher_ok .dec hkey hiv), decodeCiphertext_misaligned hc]

/-- Settles O50: the check comes first in all four; with IN_NULL = 1 no command looks at IN_LEN. -/
theorem lengthOutOfRangeFails : Obligations.LengthOutOfRangeFails := by
  refine ⟨fun s i hi hpresent hlong => exec_outOfRange hi (lenOutOfRange_long hpresent hlong), ?_⟩
  intro s t i v hnull hexec
  rw [exec_null i hnull] at hexec
  rw [exec_null (s := { s with inLen := v }) i hnull, endOnNull_inLen, next_inj hexec]

/-- Settles O51: the two ways a command ends, field by field. -/
theorem everyCommandEndsInACompletion : Obligations.EveryCommandEndsInACompletion := by
  intro i s
  obtain ⟨t, hexec, hends⟩ := exec_ends i s
  obtain ⟨hseq, hbusy, hdone, hovr, hlastOp⟩ := hends.status
  obtain ⟨hok, herr⟩ := hends.codes
  exact ⟨t, hexec, hseq, hbusy, hdone, hovr, hlastOp, hok, herr, hends.outLen_of_null, hends.outBuf⟩

/-- Settles O52: the frame of both ends, and the window through the fields it keeps. -/
theorem commandsLeaveTheRestUnchanged : Obligations.CommandsLeaveTheRestUnchanged := by
  intro i s t hexec
  have hends : Ends i s t := exec_next hexec
  refine ⟨hends.frame, fun off hoff => ?_, hends.engine⟩
  obtain ⟨hcfg, -, -⟩ := hends.cfg_key_iv
  obtain ⟨hlen, hnull, hbuf⟩ := hends.input
  exact peek_congr hcfg hlen hnull hbuf hoff

/-- Settles O55, command by command. -/
theorem hexCommandsIgnoreTheSecrets : Obligations.HexCommandsIgnoreTheSecrets :=
  fun _ _ _ key iv dir chain rk henc hdec hexec => exec_withSecrets key iv dir chain rk henc hdec hexec

/-- Settles O56: ENCODE and DECODE overwrite the engine before they use it, and the other commands do not use it. -/
theorem noEngineStateCarriesOver : Obligations.NoEngineStateCarriesOver := by
  intro i s t dir chain rk hexec
  have hother (henc : i ≠ .encode) (hdec : i ≠ .decode) :=
    exec_withSecrets s.key s.iv dir chain rk henc hdec hexec
  cases i with
  | encode => exact (execEncode_sameEnd dir chain rk).results dir chain rk hexec
  | decode => exact (execDecode_sameEnd dir chain rk).results dir chain rk hexec
  | hexEnc => exact ⟨_, hother nofun nofun, rfl, rfl, rfl⟩
  | hexDec => exact ⟨_, hother nofun nofun, rfl, rfl, rfl⟩
  | illegal rsvd opcode => exact ⟨_, hother nofun nofun, rfl, rfl, rfl⟩

/-- Settles O57: DECODE's operand is the hex of ENCODE's ciphertext, which decodes to it, and CBC_Dec undoes CBC_Enc. -/
theorem decodeUndoesEncode : Obligations.DecodeUndoesEncode := by
  intro s u t text hc hinput hne hfits hkey hiv hexec _ hukey huiv hpresent hulen hufits hread
  rw [exec_encode_succeeds ⟨hinput, hne, hfits⟩ hkey hiv] at hexec
  obtain rfl := next_inj hexec
  have hlen := encoded_outLen_toNat hc hfits
  rw [hlen] at hread
  rw [hulen, hlen] at hufits
  have hblocks := cbcEnc_pad_length s.key s.iv text
  have hpad : (pad text).length % 16 = 0 := by rw [pad_length, Nat.mul_mod_right]
  have huinput : u.input = some (bytesToHex (cbcEnc s.key s.iv (pad text))) := by
    rw [input_present hpresent, inBytes_eq (by rw [hulen, hlen]) fun i hi => ?_]
    rw [hread i hi]
    exact succeeded_outBuf_read _ _ i
  have hholds : u.Holds (bytesToHex (cbcEnc s.key s.iv (pad text))) := by
    refine ⟨huinput, List.ne_nil_of_length_pos ?_, hufits⟩
    rw [bytesToHex_length]
    omega
  have hdecode := exec_decode_succeeds hholds (hukey ▸ hkey) (huiv ▸ hiv)
    (hexToBytes_bytesToHex_cbcEnc u.cfg.oddHex s.key s.iv text) (by omega)
  rw [State.decoded, hukey, huiv, cbcDec_cbcEnc s.key s.iv hpad] at hdecode
  refine ⟨_, hdecode, rfl, rfl, succeeded_outLen_toNat ?_ _, fun i _ => succeeded_outBuf_read _ _ i⟩
  obtain ⟨-, -, -, hmax, -⟩ := hc
  rw [pad_length]
  omega

end Sys2Proof.Machine
